-- ==== Sys2Proof/Word.lean ====
section
/-! DEFINITION. The plain data types of the notation of 00_scope.md R8. -/

namespace Sys2Proof

/-- A byte: an unsigned value 0..255 (R8). -/
abbrev Byte := BitVec 8

/-- A u16: an unsigned value 0..65535 (R8). -/
abbrev U16 := BitVec 16

end Sys2Proof
end

