-- ==== Sys2Proof/Config.lean ====
section
/-! DEFINITION. The constants of 00_scope.md R6 and the parameters of R7. -/

namespace Sys2Proof.Config

/-- MBAP protocol identifier (R6). -/
abbrev protocolId : U16 := 0x0000
/-- Function code Read Holding Registers (R6). -/
abbrev fcRead : Byte := 0x03
/-- Function code Write Multiple Registers (R6). -/
abbrev fcWrite : Byte := 0x10
/-- The exception-response bit ORed into the function code (R6). -/
abbrev excBit : Byte := 0x80
/-- `0x83` (R6). -/
abbrev fcReadExc : Byte := excBit ||| fcRead
/-- `0x90` (R6). -/
abbrev fcWriteExc : Byte := excBit ||| fcWrite
/-- Largest `count` of a read (R6). -/
abbrev maxReadRegs : Nat := 125
/-- Largest number of values of a write (R6). -/
abbrev maxWriteRegs : Nat := 123
/-- Bytes before the unit id: what the length field does not count (R6). -/
abbrev mbapPrefixLen : Nat := 6
/-- Length field of a read request (R6). -/
abbrev rdReqLengthField : U16 := 6
/-- Length field of a write request of `n` registers (R6, R78). -/
abbrev wrReqLengthField (n : Nat) : Nat := 7 + 2 * n
/-- Least buffer length of a normal read response for `n` registers (R6). -/
abbrev rdRspMin (n : Nat) : Nat := 9 + 2 * n
/-- Least buffer length of a normal write response (R6). -/
abbrev wrRspMin : Nat := 12
/-- Least buffer length at which an exception response is recognised (R6, D9). -/
abbrev excRspMin : Nat := 9
/-- Reset value of `UNIT_ID` (R6, R25). -/
abbrev unitIdDefault : Byte := 1
/-- The least finite `RX_CAPACITY` (R252). -/
abbrev minRxCapacity : Nat := 259
/-- `TIMEOUT_W`, fixed at the default R7 states (log 7). -/
abbrev timeoutW : Nat := 32

end Sys2Proof.Config

namespace Sys2Proof

/-- A duration in `Tick` events: unsigned, `TIMEOUT_W` bits (R15, R17). -/
abbrev Ticks := BitVec Config.timeoutW

/-- The parameters of R7 that a model takes as arguments. They are carried in the state and no step
writes them, so a statement about every state holds for every value of them (log 6). -/
structure Params where
  /-- `TID_RESET`: value of `next_tid` after reset (R7, D4). -/
  tidReset : U16
  /-- `TIMEOUT_RESET`: value of `TIMEOUT` after reset (R7, OPEN). -/
  timeoutReset : Ticks
  /-- `RX_CAPACITY` in bytes; `none` is unbounded (R7, D17). -/
  rxCapacity : Option Nat
  deriving DecidableEq, Repr

/-- The parameters of `State.reset`: the defaults of R7; for `TIMEOUT_RESET`, which has none, 0.
DESIGN CHOICE, unsafe: log 5. -/
def Params.default : Params := { tidReset := 1, timeoutReset := 0, rxCapacity := none }

/-- R252: a finite `RX_CAPACITY` is at least 259. -/
def Params.Legal (p : Params) : Prop := ∀ c, p.rxCapacity = some c → Config.minRxCapacity ≤ c

end Sys2Proof
end

