-- ==== Sys2Proof/Machine/Operands.lean ====
section
/-! DEFINITION. Byte order, byte-sequence access and the register serializer / deserializer:
00_scope.md R8, 20_memory.md R41 to R43, 40_register_serdes.md R110, R111; the width of the caller's operands, 41_frame_encode.md R124. -/

namespace Sys2Proof.Machine

/-- `be16(h, l) = 256*h + l` (R8, R41). -/
def be16 (h l : Byte) : U16 := h ++ l

/-- `hi8(v) = v[15:8]` (R8). -/
def hi8 (v : U16) : Byte := v.extractLsb' 8 8

/-- `lo8(v) = v[7:0]` (R8). -/
def lo8 (v : U16) : Byte := v.extractLsb' 0 8

/-- A u16 field on the wire: high byte first (R41, R77). -/
def be16Bytes (v : U16) : List Byte := [hi8 v, lo8 v]

/-- `buffer[i]`. No rule reads an offset outside the buffer (R142), so what stands there for such an
offset is read by nothing. -/
def byteAt (buffer : List Byte) (i : Nat) : Byte := buffer.getD i 0

/-- `serialize(values)` (R110). -/
def serialize (values : List U16) : List Byte := values.flatMap be16Bytes

/-- The loop of `deserialize` (R111) over any way `rd` of reading a byte. -/
def deserializeFrom (rd : Nat → Byte) (offset n : Nat) : List U16 :=
  (List.range n).map fun i => be16 (rd (offset + 2 * i)) (rd (offset + 2 * i + 1))

/-- `deserialize(buffer, offset, n)` (R111), for buffers of at least `offset + 2n` bytes. -/
def deserialize (buffer : List Byte) (offset n : Nat) : List U16 :=
  deserializeFrom (byteAt buffer) offset n

/-- An operand of the caller in a field of `w` bits: none when it does not fit, so that it is never
truncated (R124, D27). -/
def narrow (w n : Nat) : Option (BitVec w) := if n < 2 ^ w then some (BitVec.ofNat w n) else none

/-- A sequence of values in u16 fields: none when one of them does not fit (R124). -/
def narrowAll : List Nat → Option (List U16)
  | [] => some []
  | n :: ns =>
    match narrow 16 n, narrowAll ns with
    | some v, some vs => some (v :: vs)
    | some _, none => none
    | none, _ => none

end Sys2Proof.Machine
end

