-- ==== Sys2Proof/Syntax.lean ====
section
/-! DEFINITION. The instructions: one constructor per row of spec/opcode_table.json, and the form in
which the environment hands them to the block. -/

namespace Sys2Proof

/-- The 7-byte MBAP header of a response frame (R71): transaction id, protocol id, length, unit id.
The three last are received and not compared with anything but what R81 and R157 say. -/
structure Mbap where
  tid : U16
  protocol : U16
  length : U16
  unitId : Byte
  deriving DecidableEq, Repr

/-- The rows of spec/opcode_table.json. The operands a caller supplies as numbers (of the submissions,
of the configuration events and of the two functions) are naturals: the caller's interface is wider than
the fields, and what does not fit is refused by the meaning, never truncated (R124, D27; log 19). -/
inductive Instr where
  /-- `RD_REQ` (R120, format R72): `encodeReadRequest`. -/
  | rdReq (tid : U16) (unitId : Byte) (addr count : U16)
  /-- `WR_REQ` (R121, format R73): `encodeWriteRequest`. -/
  | wrReq (tid : U16) (unitId : Byte) (addr : U16) (values : List U16)
  /-- `RD_RSP` (R132, format R74): header, byte count, value bytes and any trailing bytes. -/
  | rdRsp (header : Mbap) (byteCount : Byte) (rest : List Byte)
  /-- `RD_EXC` (R131, format R76): header, exception code, trailing bytes. -/
  | rdExc (header : Mbap) (code : Byte) (rest : List Byte)
  /-- `WR_RSP` (R138, format R75): header, echoed start address and register count, trailing bytes. -/
  | wrRsp (header : Mbap) (addr count : U16) (rest : List Byte)
  /-- `WR_EXC` (R137, format R76): header, exception code, trailing bytes. -/
  | wrExc (header : Mbap) (code : Byte) (rest : List Byte)
  /-- `SubmitRead` (R160). -/
  | submitRead (addr count : Nat)
  /-- `SubmitWrite` (R161). -/
  | submitWrite (addr : Nat) (values : List Nat)
  /-- `Rx` (R165). -/
  | rx (bytes : List Byte)
  /-- `Tick` (R171). -/
  | tick
  /-- `TransportError` (R172). -/
  | transportError
  /-- `Close` (R173). -/
  | close
  /-- `CfgUnit` (R174). -/
  | cfgUnit (u : Nat)
  /-- `CfgTimeout` (R175). -/
  | cfgTimeout (t : Nat)
  /-- `Reset` (R240). -/
  | reset
  /-- `serialize` (R110). -/
  | serialize (values : List Nat)
  /-- `deserialize` (R111). -/
  | deserialize (buffer : List Byte) (offset n : Nat)
  deriving DecidableEq, Repr

/-- The way by which an instruction's bytes reach the block. The direction is what tells a request
frame from a response frame (opcode_table.json, "direction"; R83). -/
inductive Channel where
  /-- A line of the event script (R100), or a function call in the table's spelling: ASCII bytes. -/
  | script
  /-- A request frame, block to device (R72, R73). -/
  | request
  /-- Bytes from the device, by the transport (R74 to R76, R40). -/
  | response
  deriving DecidableEq, Repr

/-- One event the environment supplies: the channel and the bytes. -/
structure Input where
  channel : Channel
  bytes : List Byte
  deriving DecidableEq, Repr

/-- Why bytes are no encoding of an instruction. -/
inductive DecodeError where
  /-- A script line without a word. -/
  | emptyLine
  /-- A script line whose first word is not one of R100's, nor a function's name. -/
  | keyword
  /-- Operands of another shape than R100 gives the line. -/
  | operands
  /-- A word that is no number, or no two-digit hexadecimal byte. -/
  | number
  /-- A request frame whose size is not what its fields say (R72, R73). -/
  | frameSize
  /-- A request frame whose protocol id is not `0x0000` (R71). -/
  | protocolId
  /-- A request frame whose length field is not that of R78. -/
  | lengthField
  /-- A request frame whose byte count is not twice its register count (R79). -/
  | byteCount
  /-- A request frame with a function code other than `0x03` and `0x10` (R82, R87). -/
  | functionCode
  deriving DecidableEq, Repr

end Sys2Proof
end

