-- ==== Sys2Proof/Machine/Formats.lean ====
section
/-! DEFINITION. The frame layouts, byte by byte: 30_encoding.md R71 to R76, and the well-behaved
device's responses R84 to R86. -/

namespace Sys2Proof.Machine

/-- `RD_REQ` (R72). -/
def rdReqFrame (tid : U16) (unitId : Byte) (addr count : U16) : List Byte :=
  be16Bytes tid ++ be16Bytes Config.protocolId ++ be16Bytes Config.rdReqLengthField ++
    [unitId, Config.fcRead] ++ be16Bytes addr ++ be16Bytes count

/-- `WR_REQ` (R73) for the `n = values.length` registers `values`. -/
def wrReqFrame (tid : U16) (unitId : Byte) (addr : U16) (values : List U16) : List Byte :=
  be16Bytes tid ++ be16Bytes Config.protocolId ++
    be16Bytes (BitVec.ofNat 16 (Config.wrReqLengthField values.length)) ++
    [unitId, Config.fcWrite] ++ be16Bytes addr ++ be16Bytes (BitVec.ofNat 16 values.length) ++
    [BitVec.ofNat 8 (2 * values.length)] ++ serialize values

/-- The MBAP header's 7 bytes (R71). -/
def mbapBytes (h : Mbap) : List Byte :=
  be16Bytes h.tid ++ be16Bytes h.protocol ++ be16Bytes h.length ++ [h.unitId]

/-- `RD_RSP` (R74): function code `03`, byte count, then value bytes and trailing bytes. -/
def rdRspFrame (h : Mbap) (byteCount : Byte) (rest : List Byte) : List Byte :=
  mbapBytes h ++ [Config.fcRead, byteCount] ++ rest

/-- `RD_EXC` (R76) in answer to a read: function code `83`, exception code. -/
def rdExcFrame (h : Mbap) (code : Byte) (rest : List Byte) : List Byte :=
  mbapBytes h ++ [Config.fcReadExc, code] ++ rest

/-- `WR_RSP` (R75): function code `10`, echoed address, echoed count. -/
def wrRspFrame (h : Mbap) (addr count : U16) (rest : List Byte) : List Byte :=
  mbapBytes h ++ [Config.fcWrite] ++ be16Bytes addr ++ be16Bytes count ++ rest

/-- `WR_EXC` (R76) in answer to a write: function code `90`, exception code. -/
def wrExcFrame (h : Mbap) (code : Byte) (rest : List Byte) : List Byte :=
  mbapBytes h ++ [Config.fcWriteExc, code] ++ rest

/-- `rd_rsp(tid, unit, values)` (R84): what a well-behaved device answers to a read. -/
def rdRsp (tid : U16) (unitId : Byte) (values : List U16) : List Byte :=
  rdRspFrame ⟨tid, 0, BitVec.ofNat 16 (3 + 2 * values.length), unitId⟩
    (BitVec.ofNat 8 (2 * values.length)) (serialize values)

/-- `wr_rsp(tid, unit, addr, cnt)` (R85). -/
def wrRsp (tid : U16) (unitId : Byte) (addr count : U16) : List Byte :=
  wrRspFrame ⟨tid, 0, 6, unitId⟩ addr count []

/-- `exc_rsp(tid, unit, fc, code)` (R86). -/
def excRsp (tid : U16) (unitId fc code : Byte) : List Byte :=
  mbapBytes ⟨tid, 0, 3, unitId⟩ ++ [Config.excBit ||| fc, code]

end Sys2Proof.Machine
end

