-- ==== Sys2Proof/Machine/State.lean ====
section
/-! DEFINITION. The machine's state: 10_state.md, the errors of 60_exceptions.md R200, the outputs of
43_transaction_client.md R150, the reasons a step can stop, and the state after reset. -/

namespace Sys2Proof.Machine

/-- The eight errors (R200). -/
inductive Err where
  /-- R201. -/
  | invalidParameters
  /-- R202. -/
  | busy
  /-- R203. -/
  | transportError
  /-- R204. -/
  | timeout
  /-- R205. -/
  | malformedFrame
  /-- R206. -/
  | protocolError
  /-- R207: the device's exception code. -/
  | deviceException (code : Byte)
  /-- R208. -/
  | closed
  deriving DecidableEq, Repr

/-- The result of an accepted operation (R19): `Ok(values)`, `Ok(written)` (also `Ok(true)`, R141),
`Err(e)`. -/
inductive Result where
  | okValues (values : List U16)
  | okWritten
  | err (e : Err)
  deriving DecidableEq, Repr

/-- What goes back to the caller of a pure function of the codec (R23, R93; log 9), or of a configuration
event with an operand that does not fit (R124; log 19). The model's own. -/
inductive Returned where
  | bytes (bs : List Byte)
  | values (vs : List U16)
  | err (e : Err)
  deriving DecidableEq, Repr

/-- The block's outputs (R150), and the value a call returned to its caller (log 9, log 19). -/
inductive Output where
  /-- `Tx(bytes)`: a whole request frame to the transport's `send`. -/
  | tx (bytes : List Byte)
  /-- `Reject(e)`: the submission was not accepted. -/
  | reject (e : Err)
  /-- `Resolve(r)`: the single result of an accepted operation. -/
  | resolve (r : Result)
  /-- The return value of a call; none of the three outputs of R150. -/
  | returned (r : Returned)
  deriving DecidableEq, Repr

/-- The kind of the outstanding request (R16). -/
inductive Kind where
  | read
  | write
  deriving DecidableEq, Repr

/-- The pending-request latch `pend` (R16). -/
structure Pend where
  kind : Kind
  tid : U16
  addr : U16
  count : U16
  deriving DecidableEq, Repr

/-- The register `state` (R12), with what is valid exactly in `AwaitingResponse`: the latch `pend`
(R16) and the armed timer's `timer_rem` (R17). Outside it neither has contents (U3; log 3). -/
inductive Phase where
  | idle
  | awaitingResponse (pend : Pend) (timerRem : Ticks)
  | closed
  deriving DecidableEq, Repr

/-- The state. The last four fields are the model's own. -/
structure State where
  /-- `state`, with `pend` and `timer_rem` (R12, R16, R17). -/
  state : Phase
  /-- `next_tid` (R13). -/
  nextTid : U16
  /-- `UNIT_ID` (R14). -/
  unitId : Byte
  /-- `TIMEOUT` (R15). -/
  timeout : Ticks
  /-- `rxbuf` (R18). -/
  rxbuf : List Byte
  /-- `val` and, as its length, `val_len` (R10; log 4). -/
  val : List U16
  /-- The parameters of R7. No step writes them (log 6). -/
  params : Params
  /-- Has a first `Reset` happened (R245, U16; log 14)? -/
  hasBeenReset : Bool
  /-- The events supplied and not yet taken, the next one first (R150, R182; log 1). -/
  inputs : List Input
  /-- Every output so far, the oldest first (R181; log 2). -/
  outputs : List Output
  deriving DecidableEq, Repr

/-- The block has no traps: every error is a value (R209, R210), so no step faults. -/
inductive Fault where
  deriving DecidableEq, Repr

/-- Why a step has no meaning. -/
inductive Refusal where
  /-- An instruction without a meaning yet: raised by `exec`'s arms only. Safe. -/
  | notModelled (mnemonic : String)
  /-- An `Rx`, or a response frame arriving, that would make `rxbuf` longer than a finite `RX_CAPACITY`:
  "a model refuses it" (R252, U6). Raised by `receive`. Safe. -/
  | rxOverflow
  /-- An event other than `Reset` before the first `Reset`: refused (U16). Raised by `fetch`. Safe. -/
  | beforeReset
  deriving DecidableEq, Repr

/-- `pend`, when it is valid (R16). -/
def State.pend (s : State) : Option Pend :=
  match s.state with
  | .awaitingResponse p _ => some p
  | .idle => none
  | .closed => none

/-- `timer_rem`, when the timer is armed (R17). -/
def State.timerRem (s : State) : Option Ticks :=
  match s.state with
  | .awaitingResponse _ t => some t
  | .idle => none
  | .closed => none

/-- The machine right after reset (R25), with no event supplied and no output yet. `TIMEOUT_RESET` is
OPEN in the spec: the 0 here is a DESIGN CHOICE, unsafe (log 5). -/
def State.reset : State where
  state := .idle
  nextTid := Params.default.tidReset
  unitId := Config.unitIdDefault
  timeout := Params.default.timeoutReset
  rxbuf := []
  val := []
  params := Params.default
  hasBeenReset := true
  inputs := []
  outputs := []

end Sys2Proof.Machine
end

