-- ==== Sys2Proof/Machine/Codec.lean ====
section
/-! DEFINITION. The Frame Codec: 41_frame_encode.md and 42_frame_decode.md. Pure functions (R23). -/

namespace Sys2Proof.Machine

/-- `encodeReadRequest` (R120). -/
def encodeReadRequest (tid : U16) (unitId : Byte) (addr count : U16) : Except Err (List Byte) :=
  if count = 0 ∨ Config.maxReadRegs < count.toNat then .error .invalidParameters
  else .ok (rdReqFrame tid unitId addr count)

/-- `encodeWriteRequest` (R121). -/
def encodeWriteRequest (tid : U16) (unitId : Byte) (addr : U16) (values : List U16) :
    Except Err (List Byte) :=
  if values.length = 0 ∨ Config.maxWriteRegs < values.length then .error .invalidParameters
  else .ok (wrReqFrame tid unitId addr values)

/-- `decodeReadResponse` (R130 to R132) for a buffer of `len` bytes read by `rd`, checks in R132's
order. -/
def decodeReadFrom (len : Nat) (rd : Nat → Byte) (n : Nat) : Except Err (List U16) :=
  if len < Config.excRspMin then .error .malformedFrame
  else if rd 7 = Config.fcReadExc then .error (.deviceException (rd 8))
  else if len < Config.rdRspMin n then .error .malformedFrame
  else if rd 7 ≠ Config.fcRead then .error .protocolError
  else if (rd 8).toNat ≠ 2 * n then .error .protocolError
  else .ok (deserializeFrom rd 9 n)

/-- `decodeReadResponse(buffer, expectedCount)` (R132). -/
def decodeReadResponse (buffer : List Byte) (n : Nat) : Except Err (List U16) :=
  decodeReadFrom buffer.length (byteAt buffer) n

/-- `decodeWriteResponse` (R136 to R138) for a buffer of `len` bytes read by `rd`, checks in R138's
order. The only success is `true` (R141), so its type is `Unit`. -/
def decodeWriteFrom (len : Nat) (rd : Nat → Byte) (addr count : U16) : Except Err Unit :=
  if len < Config.excRspMin then .error .malformedFrame
  else if rd 7 = Config.fcWriteExc then .error (.deviceException (rd 8))
  else if len < Config.wrRspMin then .error .malformedFrame
  else if rd 7 ≠ Config.fcWrite then .error .protocolError
  else if be16 (rd 8) (rd 9) ≠ addr then .error .protocolError
  else if be16 (rd 10) (rd 11) ≠ count then .error .protocolError
  else .ok ()

/-- `decodeWriteResponse(buffer, requestAddress, requestCount)` (R138). -/
def decodeWriteResponse (buffer : List Byte) (addr count : U16) : Except Err Unit :=
  decodeWriteFrom buffer.length (byteAt buffer) addr count

/-- The numbers 60_exceptions.md R200 suggests for a realisation (D19); no rule depends on them. -/
def errorCode : Err → Nat
  | .invalidParameters => 1
  | .busy => 2
  | .transportError => 3
  | .timeout => 4
  | .malformedFrame => 5
  | .protocolError => 6
  | .deviceException _ => 7
  | .closed => 8

end Sys2Proof.Machine
end

