-- ==== Sys2Proof/Machine/Ops.lean ====
section
/-! DEFINITION. The shared operations of the Transaction Client: outputs, rejection and resolution
(60_exceptions.md R209 to R211), submission, framing, correlation, completion and reception
(43_transaction_client.md R155 to R157, R160, R165, R166). -/

namespace Sys2Proof.Machine

/-- The three outcomes of a step of this machine. -/
abbrev Answer := Host.Outcome State Fault Refusal

/-- Go on with the next state; a fault or a refusal stops. -/
def andThen (a : Answer) (k : State → Answer) : Answer :=
  match a with
  | .next s => k s
  | .fault f => .fault f
  | .refused r => .refused r

/-- `emit` (R9). -/
def emit (o : Output) (s : State) : State := { s with outputs := s.outputs ++ [o] }

/-- A call hands its value to its caller; nothing else changes (R23, R47 d). -/
def giveBack (r : Returned) (s : State) : State := emit (.returned r) s

/-- Rejection (R209): the error goes to the submission's caller; no element of state changes. -/
def reject (e : Err) (s : State) : State := emit (.reject e) s

/-- Resolution (R210): the block leaves `AwaitingResponse` for `after` (`Idle`, or `Closed` when the
cause is `Close`), which invalidates `pend` and disarms the timer, and the result is delivered. -/
def resolve (r : Result) (after : Phase) (s : State) : State :=
  emit (.resolve r) { s with state := after }

/-- `rxbuf <- []`. -/
def discardRx (s : State) : State := { s with rxbuf := [] }

/-- A successful read's result stands in `val` (R10 b, R21); another result leaves `val` (log 4). -/
def storeResult (r : Result) (s : State) : State :=
  match r with
  | .okValues vs => { s with val := vs }
  | .okWritten => s
  | .err _ => s

/-- `frame_available(rxbuf)` (R156). -/
def frameAvailable (rxbuf : List Byte) : Option Nat :=
  if rxbuf.length < Config.mbapPrefixLen then none
  else
    let l := (be16 (byteAt rxbuf 4) (byteAt rxbuf 5)).toNat
    if rxbuf.length < Config.mbapPrefixLen + l then none else some (Config.mbapPrefixLen + l)

/-- `correlate(frame, pend)` (R157). -/
def correlate (frame : List Byte) (p : Pend) : Bool := be16 (byteAt frame 0) (byteAt frame 1) == p.tid

/-- A read decoder's value as a result (R19). -/
def readResult : Except Err (List U16) → Result
  | .ok vs => .okValues vs
  | .error e => .err e

/-- A write decoder's value as a result (R19, R141). -/
def writeResult : Except Err Unit → Result
  | .ok () => .okWritten
  | .error e => .err e

/-- The result a complete frame gives the outstanding request: correlation first, then the decoder
that `pend.kind` selects (R83, R166, R214). -/
def answer (p : Pend) (frame : List Byte) : Result :=
  if correlate frame p then
    match p.kind with
    | .read => readResult (decodeReadResponse frame p.count.toNat)
    | .write => writeResult (decodeWriteResponse frame p.addr p.count)
  else .err .protocolError

/-- The completion of the outstanding request `p` by the first `size` bytes of `rxbuf` (R166). -/
def complete (p : Pend) (size : Nat) (s : State) : State :=
  let r := answer p (s.rxbuf.take size)
  resolve r .idle (storeResult r { s with rxbuf := s.rxbuf.drop size })

/-- `try_complete()` (R166). -/
def tryComplete (s : State) : State :=
  match s.state with
  | .awaitingResponse p _ =>
    match frameAvailable s.rxbuf with
    | some size => complete p size s
    | none => s
  | .idle => s
  | .closed => s

/-- What a submission asks for: what `pend` keeps of it (R16) and the encoded frame. -/
structure Request where
  kind : Kind
  addr : U16
  count : U16
  frame : List Byte
  deriving DecidableEq, Repr

/-- The encoding of a read (R160): `InvalidParameters` from the encoder, or for an operand that is no
u16 (R124, D27). -/
def readRequest (tid : U16) (unitId : Byte) (addr count : Nat) : Except Err Request :=
  match narrow 16 addr, narrow 16 count with
  | some a, some c => (encodeReadRequest tid unitId a c).map (Request.mk .read a c)
  | some _, none => .error .invalidParameters
  | none, _ => .error .invalidParameters

/-- The encoding of a write (R161): `InvalidParameters` from the encoder, or for an operand that is no
u16 (R124, D27). -/
def writeRequest (tid : U16) (unitId : Byte) (addr : Nat) (values : List Nat) : Except Err Request :=
  match narrow 16 addr, narrowAll values with
  | some a, some vs =>
    (encodeWriteRequest tid unitId a vs).map (Request.mk .write a (BitVec.ofNat 16 vs.length))
  | some _, none => .error .invalidParameters
  | none, _ => .error .invalidParameters

/-- An accepted submission (R160): `pend` and the timer are loaded, `next_tid` advances modulo 65536
(R155), the frame is sent. Nothing else is written: a write's values "are not kept" (R161; log 4). -/
def accept (q : Request) (s : State) : State :=
  emit (.tx q.frame)
    { s with
      state := .awaitingResponse ⟨q.kind, s.nextTid, q.addr, q.count⟩ s.timeout
      nextTid := s.nextTid + 1 }

/-- A submission (R160, R161): `Closed`, then `Busy`, then `InvalidParameters`, then acceptance and
the trial of completion. `request` is what the encoding answers. -/
def submit (request : Except Err Request) (s : State) : State :=
  match s.state with
  | .closed => reject .closed s
  | .awaitingResponse _ _ => reject .busy s
  | .idle =>
    match request with
    | .error e => reject e s
    | .ok q => tryComplete (accept q s)

/-- Is there room in `rxbuf` for one byte more (R252)? -/
def hasRoom (s : State) : Bool :=
  match s.params.rxCapacity with
  | none => true
  | some c => s.rxbuf.length < c

/-- The append of one received byte and the trial of completion (R165). -/
def appendByte (b : Byte) (s : State) : Answer :=
  if hasRoom s then .next (tryComplete { s with rxbuf := s.rxbuf ++ [b] })
  else .refused .rxOverflow

/-- One received byte (R165): dropped in `Closed`, appended otherwise. -/
def receiveByte (b : Byte) (s : State) : Answer :=
  match s.state with
  | .closed => .next s
  | .idle => appendByte b s
  | .awaitingResponse _ _ => appendByte b s

/-- Received bytes, in order (R165). -/
def receive : List Byte → State → Answer
  | [], s => .next s
  | b :: bs, s => andThen (receiveByte b s) (receive bs)

end Sys2Proof.Machine
end

