-- ==== Sys2Proof/Machine/Events.lean ====
section
/-! DEFINITION. The nine events of the Transaction Client (43_transaction_client.md R150). -/

namespace Sys2Proof.Machine

/-- `SubmitRead(addr, count)` (R160). -/
def execSubmitRead (addr count : Nat) (s : State) : Answer :=
  .next (submit (readRequest s.nextTid s.unitId addr count) s)

/-- `SubmitWrite(addr, values)` (R161). -/
def execSubmitWrite (addr : Nat) (values : List Nat) (s : State) : Answer :=
  .next (submit (writeRequest s.nextTid s.unitId addr values) s)

/-- `Rx(bytes)` (R165). -/
def execRx (bytes : List Byte) (s : State) : Answer := receive bytes s

/-- `Tick` (R171). -/
def execTick (s : State) : Answer :=
  match s.state with
  | .awaitingResponse p t =>
    if t.toNat ≤ 1 then .next (resolve (.err .timeout) .idle (discardRx s))
    else .next { s with state := .awaitingResponse p (t - 1) }
  | .idle => .next s
  | .closed => .next s

/-- `TransportError` (R172). -/
def execTransportError (s : State) : Answer :=
  match s.state with
  | .awaitingResponse _ _ => .next (resolve (.err .transportError) .idle (discardRx s))
  | .idle => .next (discardRx s)
  | .closed => .next s

/-- `Close` (R173). -/
def execClose (s : State) : Answer :=
  match s.state with
  | .awaitingResponse _ _ => .next (resolve (.err .closed) .closed (discardRx s))
  | .idle => .next { discardRx s with state := .closed }
  | .closed => .next s

/-- `CfgUnit(u)` (R174). "A unit id above `0xFF`" is refused with `InvalidParameters` (R124), which goes
back to the caller: no submission, so no `Reject` (R209; log 19). -/
def execCfgUnit (u : Nat) (s : State) : Answer :=
  match narrow 8 u with
  | some b => .next { s with unitId := b }
  | none => .next (giveBack (.err .invalidParameters) s)

/-- `CfgTimeout(t)` (R175). A number of more than `TIMEOUT_W` bits is refused in the same way (R201: "an
operand does not fit its field"; log 19). -/
def execCfgTimeout (t : Nat) (s : State) : Answer :=
  match narrow Config.timeoutW t with
  | some d => .next { s with timeout := d }
  | none => .next (giveBack (.err .invalidParameters) s)

/-- `Reset` (R240): no output, even with a request outstanding (R241). The parameters, the events
still to come and the outputs already given are not the block's registers and stay (log 16). -/
def execReset (s : State) : Answer :=
  .next
    { s with
      state := .idle
      nextTid := s.params.tidReset
      unitId := Config.unitIdDefault
      timeout := s.params.timeoutReset
      rxbuf := []
      val := []
      hasBeenReset := true }

end Sys2Proof.Machine
end

