-- ==== Sys2Proof/Machine/Requests.lean ====
section
/-! DEFINITION. The request-frame rows `RD_REQ` and `WR_REQ`: the calls of the two encoders. -/

namespace Sys2Proof.Machine

/-- An encoder's value as it goes back to its caller. -/
def encoderReturn : Except Err (List Byte) → Returned
  | .ok bs => .bytes bs
  | .error e => .err e

/-- `RD_REQ`: `encodeReadRequest(tid, unitId, addr, count)` (R120). -/
def execRdReq (tid : U16) (unitId : Byte) (addr count : U16) (s : State) : Answer :=
  .next (giveBack (encoderReturn (encodeReadRequest tid unitId addr count)) s)

/-- `WR_REQ`: `encodeWriteRequest(tid, unitId, addr, values)` (R121). -/
def execWrReq (tid : U16) (unitId : Byte) (addr : U16) (values : List U16) (s : State) : Answer :=
  .next (giveBack (encoderReturn (encodeWriteRequest tid unitId addr values)) s)

end Sys2Proof.Machine
end

