-- ==== Sys2Proof/Machine/Responses.lean ====
section
/-! DEFINITION. The response-frame rows: the arrival of a whole frame at the block. Its bytes are
received (R165); framing, correlation and the decoder that `pend.kind` selects do the rest (R166). -/

namespace Sys2Proof.Machine

/-- `RD_RSP` (R132, R74). -/
def execRdRsp (h : Mbap) (byteCount : Byte) (rest : List Byte) (s : State) : Answer :=
  receive (rdRspFrame h byteCount rest) s

/-- `RD_EXC` (R131, R76). -/
def execRdExc (h : Mbap) (code : Byte) (rest : List Byte) (s : State) : Answer :=
  receive (rdExcFrame h code rest) s

/-- `WR_RSP` (R138, R75). -/
def execWrRsp (h : Mbap) (addr count : U16) (rest : List Byte) (s : State) : Answer :=
  receive (wrRspFrame h addr count rest) s

/-- `WR_EXC` (R137, R76). -/
def execWrExc (h : Mbap) (code : Byte) (rest : List Byte) (s : State) : Answer :=
  receive (wrExcFrame h code rest) s

end Sys2Proof.Machine
end

