-- ==== Sys2Proof/Machine/Serdes.lean ====
section
/-! DEFINITION. The function rows `serialize` and `deserialize` (40_register_serdes.md): pure calls. -/

namespace Sys2Proof.Machine

/-- `serialize(values)` (R110). A value above `0xFFFF` is `InvalidParameters` (R124; log 19). -/
def execSerialize (values : List Nat) (s : State) : Answer :=
  match narrowAll values with
  | some vs => .next (giveBack (.bytes (serialize vs)) s)
  | none => .next (giveBack (.err .invalidParameters) s)

/-- `deserialize(buffer, offset, n)` (R111). When the precondition `len(buffer) >= offset + 2n` fails
the answer is `MalformedFrame`, which R111 allows a model (log 12). -/
def execDeserialize (buffer : List Byte) (offset n : Nat) (s : State) : Answer :=
  if offset + 2 * n ≤ buffer.length then .next (giveBack (.values (deserialize buffer offset n)) s)
  else .next (giveBack (.err .malformedFrame) s)

end Sys2Proof.Machine
end

