-- ==== Sys2Proof/Machine/Dispatch.lean ====
section
/-! DEFINITION. The meaning of every row of spec/opcode_table.json. -/

namespace Sys2Proof.Machine

def exec (i : Instr) (s : State) : Host.Outcome State Fault Refusal :=
  match i with
  | .rdReq tid unitId addr count => Sys2Proof.Machine.execRdReq tid unitId addr count s
  | .wrReq tid unitId addr values => Sys2Proof.Machine.execWrReq tid unitId addr values s
  | .rdRsp h byteCount rest => Sys2Proof.Machine.execRdRsp h byteCount rest s
  | .rdExc h code rest => Sys2Proof.Machine.execRdExc h code rest s
  | .wrRsp h addr count rest => Sys2Proof.Machine.execWrRsp h addr count rest s
  | .wrExc h code rest => Sys2Proof.Machine.execWrExc h code rest s
  | .submitRead addr count => Sys2Proof.Machine.execSubmitRead addr count s
  | .submitWrite addr values => Sys2Proof.Machine.execSubmitWrite addr values s
  | .rx bytes => Sys2Proof.Machine.execRx bytes s
  | .tick => Sys2Proof.Machine.execTick s
  | .transportError => Sys2Proof.Machine.execTransportError s
  | .close => Sys2Proof.Machine.execClose s
  | .cfgUnit u => Sys2Proof.Machine.execCfgUnit u s
  | .cfgTimeout t => Sys2Proof.Machine.execCfgTimeout t s
  | .reset => Sys2Proof.Machine.execReset s
  | .serialize values => Sys2Proof.Machine.execSerialize values s
  | .deserialize buffer offset n => Sys2Proof.Machine.execDeserialize buffer offset n s

end Sys2Proof.Machine
end

