-- ==== Sys2Proof/WellFormed.lean ====
section
/-! DEFINITION. Which instructions their encoding can express. -/

namespace Sys2Proof

/-- An instruction is well-formed when every operand fits the field its encoding gives it.
`WR_REQ`: the byte count is one byte (R73), so at most 127 values; the limit 123 is not a matter of
the encoding but of `encodeWriteRequest` (R121: 124 "would still fit their fields"). A script line can
express every number (log 11). -/
def Instr.wellFormed : Instr → Bool
  | .rdReq _ _ _ _ => true
  | .wrReq _ _ _ values => values.length ≤ 127
  | .rdRsp _ _ _ => true
  | .rdExc _ _ _ => true
  | .wrRsp _ _ _ _ => true
  | .wrExc _ _ _ => true
  | .submitRead _ _ => true
  | .submitWrite _ _ => true
  | .rx _ => true
  | .tick => true
  | .transportError => true
  | .close => true
  | .cfgUnit _ => true
  | .cfgTimeout _ => true
  | .reset => true
  | .serialize _ => true
  | .deserialize _ _ _ => true

end Sys2Proof
end

