-- ==== Sys2Proof/Decode.lean ====
section
/-! DEFINITION. The decoder, total on any bytes, and the encoder. Frames follow 30_encoding.md R71 to
R79; events follow the event-script lines of R100, read as ASCII bytes (log 11). -/

namespace Sys2Proof

open Machine

/-! ### Characters and words of a script line (R100) -/

/-- ASCII bytes of a text. -/
def ascii (cs : List Char) : List Byte := cs.map fun c => BitVec.ofNat 8 c.toNat

def chSpace : Byte := 0x20
def chComma : Byte := 0x2C
def chOpen : Byte := 0x5B
def chClose : Byte := 0x5D
def chLeft : Byte := 0x28
def chRight : Byte := 0x29

def kwReset : List Byte := ascii ['R', 'E', 'S', 'E', 'T']
def kwCfgUnit : List Byte := ascii ['C', 'F', 'G', 'U']
def kwCfgTimeout : List Byte := ascii ['C', 'F', 'G', 'T']
def kwRead : List Byte := ascii ['R', 'D']
def kwWrite : List Byte := ascii ['W', 'R']
def kwRx : List Byte := ascii ['R', 'X']
def kwTick : List Byte := ascii ['T', 'I', 'C', 'K']
def kwTransportError : List Byte := ascii ['T', 'E', 'R', 'R']
def kwClose : List Byte := ascii ['C', 'L', 'O', 'S', 'E']
def kwSerialize : List Byte := ascii ['s', 'e', 'r', 'i', 'a', 'l', 'i', 'z', 'e']
def kwDeserialize : List Byte := ascii ['d', 'e', 's', 'e', 'r', 'i', 'a', 'l', 'i', 'z', 'e']

/-- The pieces of a line: words, and the marks `,` `[` `]` `(` `)`. -/
inductive Tok where
  | word (w : List Byte)
  | mark (b : Byte)
  deriving DecidableEq, Repr

/-- Is the byte one of the marks? -/
def isMark (b : Byte) : Bool :=
  b == chComma || b == chOpen || b == chClose || b == chLeft || b == chRight

/-- The word collected so far, if any. -/
def flushWord (acc : List Byte) : List Tok := if acc = [] then [] else [.word acc]

/-- A line cut into its pieces; `acc` is the word being collected. -/
def lexFrom (acc : List Byte) : List Byte → List Tok
  | [] => flushWord acc
  | b :: bs =>
    if b = chSpace then flushWord acc ++ lexFrom [] bs
    else if isMark b then flushWord acc ++ .mark b :: lexFrom [] bs
    else lexFrom (acc ++ [b]) bs

/-! ### Numbers -/

/-- The value of a digit, decimal or hexadecimal. -/
def digitVal (b : Byte) : Option Nat :=
  if 0x30 ≤ b.toNat ∧ b.toNat ≤ 0x39 then some (b.toNat - 0x30)
  else if 0x41 ≤ b.toNat ∧ b.toNat ≤ 0x46 then some (b.toNat - 0x41 + 10)
  else if 0x61 ≤ b.toNat ∧ b.toNat ≤ 0x66 then some (b.toNat - 0x61 + 10)
  else none

/-- Digits to a given base, most significant first; `acc` is the value so far. -/
def digitsFrom (base acc : Nat) : List Byte → Option Nat
  | [] => some acc
  | b :: bs =>
    match digitVal b with
    | some d => if d < base then digitsFrom base (acc * base + d) bs else none
    | none => none

/-- A number as R100's lines write it: `0x` and hexadecimal digits (R8), or decimal digits, of any
size. That `0X` and the digits `a` to `f` of either case are read too is the model's choice: DESIGN
CHOICE, safe (log 11). -/
def number (w : List Byte) : Option Nat :=
  match w with
  | [] => none
  | [b] => digitsFrom 10 0 [b]
  | b :: x :: ds =>
    if b = 0x30 ∧ (x = 0x78 ∨ x = 0x58) then
      if ds = [] then none else digitsFrom 16 0 ds
    else digitsFrom 10 0 w

/-- A number operand of any size. Whether it fits its field is for the meaning to say (R124, D27). -/
def natOf (w : List Byte) : Except DecodeError Nat :=
  match number w with
  | none => .error .number
  | some n => .ok n

/-- A byte in the two-digit hexadecimal form of frames (R93). -/
def hexByte (w : List Byte) : Except DecodeError Byte :=
  match w with
  | [_, _] =>
    match digitsFrom 16 0 w with
    | some n => .ok (BitVec.ofNat 8 n)
    | none => .error .number
  | _ => .error .number

/-! ### Operand lists -/

/-- The inside of `[v0, v1, ...]` up to its `]`: the values and what follows. `needValue` says that a
value must come next (after `[` and after a comma). -/
def valuesFrom (needValue : Bool) : List Tok → Except DecodeError (List Nat × List Tok)
  | [] => .error .operands
  | .word w :: ts =>
    if needValue then
      match natOf w with
      | .error e => .error e
      | .ok v =>
        match valuesFrom false ts with
        | .error e => .error e
        | .ok (vs, rest) => .ok (v :: vs, rest)
    else .error .operands
  | .mark m :: ts =>
    if needValue then .error .operands
    else if m = chClose then .ok ([], ts)
    else if m = chComma then valuesFrom true ts
    else .error .operands

/-- What stands after a `[`: an immediate `]`, or values (R100). -/
def valuesAfterOpen : List Tok → Except DecodeError (List Nat × List Tok)
  | [] => .error .operands
  | .word w :: ts => valuesFrom true (.word w :: ts)
  | .mark m :: ts => if m = chClose then .ok ([], ts) else .error .operands

/-- `[v0, v1, ...]`, empty or not (R100): the values and what follows. -/
def valueList : List Tok → Except DecodeError (List Nat × List Tok)
  | [] => .error .operands
  | .word _ :: _ => .error .operands
  | .mark m :: ts => if m = chOpen then valuesAfterOpen ts else .error .operands

/-- Hexadecimal bytes up to the first mark or the end: the bytes and what follows. -/
def byteList : List Tok → Except DecodeError (List Byte × List Tok)
  | .word w :: ts =>
    match hexByte w with
    | .error e => .error e
    | .ok b =>
      match byteList ts with
      | .error e => .error e
      | .ok (bs, r) => .ok (b :: bs, r)
  | ts => .ok ([], ts)

/-! ### Script lines (R100) and function calls -/

def parseNone (i : Instr) (ops : List Tok) : Except DecodeError Instr :=
  if ops = [] then .ok i else .error .operands

/-- `CFGU u`. -/
def parseCfgUnit : List Tok → Except DecodeError Instr
  | [.word u] =>
    match natOf u with
    | .ok n => .ok (.cfgUnit n)
    | .error e => .error e
  | _ => .error .operands

/-- `CFGT t`. -/
def parseCfgTimeout : List Tok → Except DecodeError Instr
  | [.word t] =>
    match natOf t with
    | .ok n => .ok (.cfgTimeout n)
    | .error e => .error e
  | _ => .error .operands

/-- `RD a, c`. -/
def parseRead : List Tok → Except DecodeError Instr
  | [.word a, .mark m, .word c] =>
    if m = chComma then
      match natOf a, natOf c with
      | .ok addr, .ok count => .ok (.submitRead addr count)
      | .error e, _ => .error e
      | _, .error e => .error e
    else .error .operands
  | _ => .error .operands

/-- `WR a, [v0, v1, ...]`. -/
def parseWrite : List Tok → Except DecodeError Instr
  | .word a :: .mark m :: ts =>
    if m = chComma then
      match natOf a, valueList ts with
      | .ok addr, .ok (vs, []) => .ok (.submitWrite addr vs)
      | .ok _, .ok (_, _ :: _) => .error .operands
      | .error e, _ => .error e
      | _, .error e => .error e
    else .error .operands
  | _ => .error .operands

/-- `RX b0 b1 ...`. -/
def parseRx (ts : List Tok) : Except DecodeError Instr :=
  match byteList ts with
  | .ok (bs, []) => .ok (.rx bs)
  | .ok (_, _ :: _) => .error .operands
  | .error e => .error e

/-- `serialize([v0, v1, ...])`. -/
def parseSerialize : List Tok → Except DecodeError Instr
  | .mark l :: ts =>
    if l = chLeft then
      match valueList ts with
      | .ok (vs, [.mark r]) => if r = chRight then .ok (.serialize vs) else .error .operands
      | .ok _ => .error .operands
      | .error e => .error e
    else .error .operands
  | _ => .error .operands

/-- The end `, offset, n)` of a `deserialize` call. -/
def parseDeserializeEnd (buffer : List Byte) : List Tok → Except DecodeError Instr
  | [.mark m1, .word o, .mark m2, .word k, .mark r] =>
    if m1 = chComma ∧ m2 = chComma ∧ r = chRight then
      match natOf o, natOf k with
      | .ok offset, .ok n => .ok (.deserialize buffer offset n)
      | .error e, _ => .error e
      | _, .error e => .error e
    else .error .operands
  | _ => .error .operands

/-- `deserialize(b0 b1 ..., offset, n)`. -/
def parseDeserialize : List Tok → Except DecodeError Instr
  | .mark l :: ts =>
    if l = chLeft then
      match byteList ts with
      | .ok (bs, r) => parseDeserializeEnd bs r
      | .error e => .error e
    else .error .operands
  | _ => .error .operands

/-- A line of pieces: the keyword selects the event (R100) or the function. -/
def parseLine : List Tok → Except DecodeError Instr
  | [] => .error .emptyLine
  | .mark _ :: _ => .error .keyword
  | .word k :: ops =>
    if k = kwReset then parseNone .reset ops
    else if k = kwCfgUnit then parseCfgUnit ops
    else if k = kwCfgTimeout then parseCfgTimeout ops
    else if k = kwRead then parseRead ops
    else if k = kwWrite then parseWrite ops
    else if k = kwRx then parseRx ops
    else if k = kwTick then parseNone .tick ops
    else if k = kwTransportError then parseNone .transportError ops
    else if k = kwClose then parseNone .close ops
    else if k = kwSerialize then parseSerialize ops
    else if k = kwDeserialize then parseDeserialize ops
    else .error .keyword

/-- A script line. -/
def decodeLine (bytes : List Byte) : Except DecodeError Instr := parseLine (lexFrom [] bytes)

/-! ### Frames -/

/-- A request frame after its fixed 12 bytes, for function code `0x10` (R73). -/
def decodeWrReqBody (tid : U16) (unitId : Byte) (addr count length : U16) :
    List Byte → Except DecodeError Instr
  | [] => .error .frameSize
  | bc :: vs =>
    if length.toNat ≠ Config.wrReqLengthField count.toNat then .error .lengthField
    else if bc.toNat ≠ 2 * count.toNat then .error .byteCount
    else if vs.length ≠ 2 * count.toNat then .error .frameSize
    else .ok (.wrReq tid unitId addr (Machine.deserialize vs 0 count.toNat))

/-- A request frame (R71 to R73, R78, R79). -/
def decodeRequest : List Byte → Except DecodeError Instr
  | t1 :: t0 :: p1 :: p0 :: l1 :: l0 :: u :: fc :: a1 :: a0 :: c1 :: c0 :: rest =>
    if be16 p1 p0 ≠ Config.protocolId then .error .protocolId
    else if fc = Config.fcRead then
      if be16 l1 l0 ≠ Config.rdReqLengthField then .error .lengthField
      else if rest ≠ [] then .error .frameSize
      else .ok (.rdReq (be16 t1 t0) u (be16 a1 a0) (be16 c1 c0))
    else if fc = Config.fcWrite then
      decodeWrReqBody (be16 t1 t0) u (be16 a1 a0) (be16 c1 c0) (be16 l1 l0) rest
    else .error .functionCode
  | _ => .error .frameSize

/-- Bytes from the device: the function-code byte at offset 7 names the row (R74 to R76). Bytes that
are none of the four rows are still bytes received (R40, R87): they are an `Rx`. -/
def decodeResponse (bytes : List Byte) : Instr :=
  match bytes with
  | t1 :: t0 :: p1 :: p0 :: l1 :: l0 :: u :: fc :: b8 :: rest =>
    if fc = Config.fcRead then .rdRsp ⟨be16 t1 t0, be16 p1 p0, be16 l1 l0, u⟩ b8 rest
    else if fc = Config.fcReadExc then .rdExc ⟨be16 t1 t0, be16 p1 p0, be16 l1 l0, u⟩ b8 rest
    else if fc = Config.fcWriteExc then .wrExc ⟨be16 t1 t0, be16 p1 p0, be16 l1 l0, u⟩ b8 rest
    else if fc = Config.fcWrite then
      match rest with
      | b9 :: b10 :: b11 :: tail =>
        .wrRsp ⟨be16 t1 t0, be16 p1 p0, be16 l1 l0, u⟩ (be16 b8 b9) (be16 b10 b11) tail
      | _ => .rx bytes
    else .rx bytes
  | _ => .rx bytes

/-- The decoder. -/
def decode (x : Input) : Except DecodeError Instr :=
  match x.channel with
  | .script => decodeLine x.bytes
  | .request => decodeRequest x.bytes
  | .response => .ok (decodeResponse x.bytes)

/-! ### The opcode table's numbering -/

/-- The `k` bytes of a number, most significant first. -/
def bytesOfNat (k w : Nat) : List Byte :=
  (List.range k).map fun i => BitVec.ofNat 8 (w >>> (8 * (k - 1 - i)))

/-- The frame bytes of a table word: the table's numbers stand "over frame bytes 0..7, byte 0 most
significant"; the bytes the number does not reach are 0, up to the least size of a frame (log 13). -/
def tableBytes (nbits w : Nat) : List Byte :=
  let head := bytesOfNat (max 8 ((nbits + 7) / 8)) w
  let least := if byteAt head 7 = Config.fcWrite ∨ byteAt head 7 = Config.fcRead ∧ byteAt head 5 = 6
    then Config.wrRspMin else Config.excRspMin
  head ++ List.replicate (least - head.length) 0

/-- Do the bytes carry the fixed bits of `RD_REQ`, or those of `WR_REQ` with a length field a
request can have (R72, R73, R78)? The table's other frame rows are responses. -/
def looksLikeRequest (bytes : List Byte) : Bool :=
  let length := be16 (byteAt bytes 4) (byteAt bytes 5)
  be16 (byteAt bytes 2) (byteAt bytes 3) == Config.protocolId &&
    (byteAt bytes 7 == Config.fcRead && length == Config.rdReqLengthField ||
      byteAt bytes 7 == Config.fcWrite && Config.wrReqLengthField 1 ≤ length.toNat)

/-- A table word as the environment would supply it. -/
def tableInput (nbits w : Nat) : Input :=
  let bytes := tableBytes nbits w
  ⟨if looksLikeRequest bytes then .request else .response, bytes⟩

/-- The instruction the decoder reads from a table word. -/
def decodeTableWord (nbits w : Nat) : Option Instr :=
  match decode (tableInput nbits w) with
  | .ok i => some i
  | .error _ => none

/-! ### The encoder -/

/-- An upper-case hexadecimal digit. -/
def hexDigit (d : Nat) : Byte :=
  if d < 10 then BitVec.ofNat 8 (0x30 + d) else BitVec.ofNat 8 (0x41 + (d - 10))

/-- `k` hexadecimal digits of a number, most significant first. -/
def hexDigits : Nat → Nat → List Byte
  | 0, _ => []
  | k + 1, n => hexDigits k (n / 16) ++ [hexDigit (n % 16)]

/-- A byte as two hexadecimal digits (R93). -/
def byteText (b : Byte) : List Byte := hexDigits 2 b.toNat

/-- The number of hexadecimal digits that hold `n`. -/
def digitCount (n : Nat) : Nat := n.log2 / 4 + 1

/-- A number as `0x` and hexadecimal digits (R8), `least` of them or as many as it needs. -/
def numberText (least n : Nat) : List Byte :=
  ascii ['0', 'x'] ++ hexDigits (max least (digitCount n)) n

/-- The end of a value list after a value: `, v1, ...]`. -/
def moreValuesText : List Nat → List Byte
  | [] => [chClose]
  | v :: vs => [chComma, chSpace] ++ numberText 4 v ++ moreValuesText vs

/-- `[v0, v1, ...]`. -/
def valueListText : List Nat → List Byte
  | [] => [chOpen, chClose]
  | v :: vs => [chOpen] ++ numberText 4 v ++ moreValuesText vs

/-- Bytes, each after a space. -/
def byteListText : List Byte → List Byte
  | [] => []
  | b :: bs => [chSpace] ++ byteText b ++ byteListText bs

def scriptInput (bytes : List Byte) : Input := ⟨.script, bytes⟩

/-- The encoder: the bytes of an instruction and the channel they come by. -/
def encode : Instr → Input
  | .rdReq tid unitId addr count => ⟨.request, rdReqFrame tid unitId addr count⟩
  | .wrReq tid unitId addr values => ⟨.request, wrReqFrame tid unitId addr values⟩
  | .rdRsp h bc rest => ⟨.response, rdRspFrame h bc rest⟩
  | .rdExc h code rest => ⟨.response, rdExcFrame h code rest⟩
  | .wrRsp h addr count rest => ⟨.response, wrRspFrame h addr count rest⟩
  | .wrExc h code rest => ⟨.response, wrExcFrame h code rest⟩
  | .submitRead addr count =>
    scriptInput (kwRead ++ [chSpace] ++ numberText 4 addr ++ [chComma, chSpace] ++ numberText 4 count)
  | .submitWrite addr values =>
    scriptInput (kwWrite ++ [chSpace] ++ numberText 4 addr ++ [chComma, chSpace] ++
      valueListText values)
  | .rx bytes => scriptInput (kwRx ++ byteListText bytes)
  | .tick => scriptInput kwTick
  | .transportError => scriptInput kwTransportError
  | .close => scriptInput kwClose
  | .cfgUnit u => scriptInput (kwCfgUnit ++ [chSpace] ++ numberText 2 u)
  | .cfgTimeout t => scriptInput (kwCfgTimeout ++ [chSpace] ++ numberText 8 t)
  | .reset => scriptInput kwReset
  | .serialize values => scriptInput (kwSerialize ++ [chLeft] ++ valueListText values ++ [chRight])
  | .deserialize buffer offset n =>
    scriptInput (kwDeserialize ++ [chLeft] ++ byteListText buffer ++ [chComma, chSpace] ++
      numberText 8 offset ++ [chComma, chSpace] ++ numberText 8 n ++ [chRight])

end Sys2Proof
end

