-- ==== Sys2Proof/Machine/Fetch.lean ====
section
/-! DEFINITION. Taking the next event from the environment (43_transaction_client.md R150, R182). -/

namespace Sys2Proof.Machine

/-- What taking the next event gives. -/
inductive Fetched where
  /-- No instruction: the state, with whatever was supplied taken. -/
  | nothing (s : State)
  /-- The event has no meaning. -/
  | stop (r : Refusal)
  /-- The instruction, and the state with its event taken. -/
  | run (i : Instr) (s : State)
  deriving DecidableEq, Repr

/-- Is the instruction one of the events of R150, a response frame being received bytes (`Rx`)? The
others are calls of the codec's pure functions, which read no state (R23). -/
def isEvent (i : Instr) : Bool :=
  match i with
  | .rdReq _ _ _ _ => false
  | .wrReq _ _ _ _ => false
  | .rdRsp _ _ _ => true
  | .rdExc _ _ _ => true
  | .wrRsp _ _ _ _ => true
  | .wrExc _ _ _ => true
  | .submitRead _ _ => true
  | .submitWrite _ _ => true
  | .rx _ => true
  | .tick => true
  | .transportError => true
  | .close => true
  | .cfgUnit _ => true
  | .cfgTimeout _ => true
  | .reset => true
  | .serialize _ => false
  | .deserialize _ _ _ => false

/-- The next instruction. Before the first `Reset` no event but `Reset` has a meaning (R245, U16; log 14).
Bytes that decode to no instruction are no event, and "nothing but the events" changes the block (R150,
R217): they are taken and nothing happens (log 17). -/
def fetch (s : State) : Fetched :=
  match s.inputs with
  | [] => .nothing s
  | x :: rest =>
    match decode x with
    | .error _ => .nothing { s with inputs := rest }
    | .ok i =>
      if s.hasBeenReset ∨ i = .reset ∨ isEvent i = false then .run i { s with inputs := rest }
      else .stop .beforeReset

/-- The state with a table word as its next event. -/
def supplyTableWord (s : State) (nbits w : Nat) : State :=
  { s with inputs := tableInput nbits w :: s.inputs, hasBeenReset := true }

end Sys2Proof.Machine
end

