-- ==== Sys2Proof/Machine/Step.lean ====
section
/-! DEFINITION. One step: the next event, handled atomically and to completion (R48, R150). -/

namespace Sys2Proof.Machine

/-- One step. Without an event the block is as it was: it "does nothing until an event arrives"
(R242, R150; log 18). -/
def step (s : State) : Host.Outcome State Fault Refusal :=
  match fetch s with
  | .nothing t => .next t
  | .stop r => .refused r
  | .run i t => exec i t

/-- `s` with a table word where `step` takes its next instruction (log 13). -/
def State.withFetchWord (s : State) (nbits w : Nat) : State := supplyTableWord s nbits w

end Sys2Proof.Machine
end

