-- ==== Sys2Proof/Safety.lean ====
section
/-! DEFINITION. The terms statements use: the invariants of 10_state.md R24, counts over the output
sequence (R181), and runs over events (R182). -/

namespace Sys2Proof.Machine

/-- R24.5: the register count a pending request can have. -/
def Pend.countInRange (p : Pend) : Prop :=
  1 ≤ p.count.toNat ∧
    match p.kind with
    | .read => p.count.toNat ≤ Config.maxReadRegs
    | .write => p.count.toNat ≤ Config.maxWriteRegs

/-- The invariants of R24 about one state (1 and 2 hold by the shape of `Phase`), and the bounds of
R10, R18 and R252. -/
structure StateInv (s : State) : Prop where
  /-- R24.3. -/
  noCompleteFrame : ∀ p t, s.state = .awaitingResponse p t → frameAvailable s.rxbuf = none
  /-- R24.4. -/
  closedEmpty : s.state = .closed → s.rxbuf = []
  /-- R24.5. -/
  countLegal : ∀ p t, s.state = .awaitingResponse p t → p.countInRange
  /-- R10: `val_len` is 0..125. -/
  valBounded : s.val.length ≤ 125
  /-- R18: `rxbuf` holds at most `RX_CAPACITY` bytes. -/
  rxBounded : ∀ c, s.params.rxCapacity = some c → s.rxbuf.length ≤ c
  /-- R252. -/
  paramsLegal : s.params.Legal

/-- What `val` holds after a result that found `v` in it: a successful read's values (R10 b; log 4). -/
def valAfter (r : Result) (v : List U16) : List U16 :=
  match r with
  | .okValues vs => vs
  | .okWritten => v
  | .err _ => v

/-- R252: `n` bytes more stay within `RX_CAPACITY`. -/
def RoomFor (s : State) (n : Nat) : Prop :=
  ∀ c, s.params.rxCapacity = some c → s.rxbuf.length + n ≤ c

/-- 1 while a request is outstanding, else 0. -/
def outstanding (s : State) : Nat :=
  match s.state with
  | .awaitingResponse _ _ => 1
  | .idle => 0
  | .closed => 0

/-- The number of `Tx` outputs: one for each accepted submission (R160). -/
def txCount (os : List Output) : Nat :=
  os.countP fun o => match o with
    | .tx _ => true
    | .reject _ => false
    | .resolve _ => false
    | .returned _ => false

/-- The number of `Resolve` outputs. -/
def resolveCount (os : List Output) : Nat :=
  os.countP fun o => match o with
    | .resolve _ => true
    | .tx _ => false
    | .reject _ => false
    | .returned _ => false

/-- Instructions handled one after the other; a stop ends the run (R182). -/
def execAll : List Instr → State → Answer
  | [], s => .next s
  | i :: is, s => andThen (exec i s) (execAll is)

end Sys2Proof.Machine
end

