-- ==== Sys2Proof/Certificates/Slice0/Obligations.lean ====
section
/-! DEFINITION. The statements for the provers. Each docstring names the rule of spec/ it formalises. -/

open Sys2Proof Sys2Proof.Machine

/-! ### Reset, fetching, decoding -/

/-- R240: in any state, with any contents, `Reset` gives the reset values and no output, and no other
instruction leaves `Closed`. (That the model's own field `hasBeenReset` becomes true is log 14; that
`params`, `inputs` and the outputs already given stay is log 16.) -/
def Obligations.ResetAloneLeavesClosed : Prop :=
  (∀ s : State, exec .reset s = .next
    { s with
      state := .idle
      nextTid := s.params.tidReset
      unitId := 1
      timeout := s.params.timeoutReset
      rxbuf := []
      val := []
      hasBeenReset := true }) ∧
  (∀ (i : Instr) (s t : State), s.state = .closed → i ≠ .reset → exec i s = .next t →
    t.state = .closed)

/-- R25: what the state right after reset holds. The two parameters are named, not valued: the value
of `TIMEOUT_RESET` is the model's choice (log 5). -/
def Obligations.ResetStateHoldsTheResetValues : Prop :=
  State.reset.state = .idle ∧ State.reset.nextTid = State.reset.params.tidReset ∧
  State.reset.unitId = 0x01 ∧ State.reset.timeout = State.reset.params.timeoutReset ∧
  State.reset.pend = none ∧ State.reset.timerRem = none ∧ State.reset.rxbuf = [] ∧
  State.reset.val.length = 0 ∧ State.reset.outputs = []

/-- R24.1, R24.2: `pend` is valid, and the timer armed, exactly in `AwaitingResponse`. -/
def Obligations.PendAndTimerExistExactlyWhileAwaiting : Prop :=
  ∀ s : State,
    ((∃ p, s.pend = some p) ↔ ∃ p t, s.state = .awaitingResponse p t) ∧
    ((∃ t, s.timerRem = some t) ↔ ∃ p t, s.state = .awaitingResponse p t)

/-- A step runs the decoded instruction (R48, R150): when what is supplied first decodes to `i`, the step
is `exec` of `i` on the state with that input taken; before the first `Reset` only for `Reset` and for a
call of the codec, which is no event (R23, R245; log 14). -/
def Obligations.StepRunsTheDecodedInstruction : Prop :=
  ∀ (s : State) (x : Input) (rest : List Input) (i : Instr),
    s.inputs = x :: rest → decode x = .ok i → (s.hasBeenReset = true ∨ i = .reset ∨ isEvent i = false) →
    step s = exec i { s with inputs := rest }

/-- Where a step runs no instruction: without an event nothing changes (R150, R242; log 18); bytes that
encode no instruction are no event, are taken and change nothing (R150, R217, read so by the model: log
17); an event other than `Reset` before the first `Reset` is refused (R245, U16; log 14). -/
def Obligations.StepWithoutAnInstruction : Prop :=
  (∀ s : State, s.inputs = [] → step s = .next s) ∧
  (∀ (s : State) (x : Input) (rest : List Input) (e : DecodeError),
    s.inputs = x :: rest → decode x = .error e → step s = .next { s with inputs := rest }) ∧
  (∀ (s : State) (x : Input) (rest : List Input) (i : Instr),
    s.inputs = x :: rest → decode x = .ok i → s.hasBeenReset = false → i ≠ .reset →
    isEvent i = true → step s = .refused .beforeReset)

/-- The decoding of bytes written out from the spec: the source's request and response frames S1, S2,
an exception response; and two lines of R100, whose form as ASCII bytes is the model's choice (log 11). -/
def Obligations.SampleEncodingsDecode : Prop :=
  decode ⟨.request, [0x00, 0x01, 0x00, 0x00, 0x00, 0x06, 0x01, 0x03, 0x00, 0x00, 0x00, 0x02]⟩ =
    .ok (.rdReq 0x0001 0x01 0x0000 2) ∧
  decode ⟨.request, [0x00, 0x01, 0x00, 0x00, 0x00, 0x09, 0x01, 0x10, 0x00, 0x10, 0x00, 0x01, 0x02,
    0x00, 0xFF]⟩ = .ok (.wrReq 0x0001 0x01 0x0010 [0x00FF]) ∧
  decode ⟨.response, [0x00, 0x01, 0x00, 0x00, 0x00, 0x07, 0x01, 0x03, 0x04, 0x00, 0x0A, 0x00, 0x14]⟩ =
    .ok (.rdRsp ⟨1, 0, 7, 1⟩ 4 [0x00, 0x0A, 0x00, 0x14]) ∧
  decode ⟨.response, [0x00, 0x01, 0x00, 0x00, 0x00, 0x03, 0x01, 0x90, 0x03]⟩ =
    .ok (.wrExc ⟨1, 0, 3, 1⟩ 3 []) ∧
  decode ⟨.script, ascii ['R', 'D', ' ', '0', 'x', '0', '0', '6', 'B', ',', ' ', '3']⟩ =
    .ok (.submitRead 0x006B 3) ∧
  decode ⟨.script, ascii ['W', 'R', ' ', '5', ',', ' ', '[', '7', ',', ' ', '8', ']']⟩ =
    .ok (.submitWrite 5 [7, 8])

/-- Whatever the decoder accepts is well-formed. -/
def Obligations.DecodedInstructionsAreWellFormed : Prop :=
  ∀ (x : Input) (i : Instr), decode x = .ok i → i.wellFormed = true

/-- R72 to R76, R100, and the table's spelling of the two functions (log 11): for every well-formed
instruction, frames and script lines alike, decoding the encoding gives the instruction back. -/
def Obligations.EveryInstructionDecodesFromItsEncoding : Prop :=
  ∀ i : Instr, i.wellFormed = true → decode (encode i) = .ok i

/-- R72, R73, R78, R79: a request frame has one meaning, and the meaning one frame. -/
def Obligations.RequestFramesHaveOneReading : Prop :=
  ∀ (bytes : List Byte) (i : Instr), decode ⟨.request, bytes⟩ = .ok i → encode i = ⟨.request, bytes⟩

/-! ### Register serializer and deserializer -/

/-- R110: the bytes of `serialize`, and its length. -/
def Obligations.SerializeWritesHighByteFirst : Prop :=
  ∀ values : List U16, (serialize values).length = 2 * values.length ∧
    ∀ (i : Nat) (h : i < values.length),
      byteAt (serialize values) (2 * i) = hi8 values[i] ∧
      byteAt (serialize values) (2 * i + 1) = lo8 values[i]

/-- R111: the registers of `deserialize`, and their number. -/
def Obligations.DeserializeReadsHighByteFirst : Prop :=
  ∀ (buffer : List Byte) (offset n : Nat), offset + 2 * n ≤ buffer.length →
    (deserialize buffer offset n).length = n ∧
    ∀ (i : Nat) (h : i < (deserialize buffer offset n).length),
      (deserialize buffer offset n)[i] =
        be16 (byteAt buffer (offset + 2 * i)) (byteAt buffer (offset + 2 * i + 1))

/-- R112: both round trips. -/
def Obligations.SerdesRoundTrip : Prop :=
  (∀ (pre : List Byte) (values : List U16) (suf : List Byte),
    deserialize (pre ++ serialize values ++ suf) pre.length values.length = values) ∧
  (∀ (b : List Byte) (n : Nat), b.length = 2 * n → serialize (deserialize b 0 n) = b)

/-! ### Encoders -/

/-- R120: `encodeReadRequest`, every byte. -/
def Obligations.ReadRequestBytes : Prop :=
  ∀ (tid : U16) (unitId : Byte) (addr count : U16),
    ((count = 0 ∨ 125 < count.toNat) →
      encodeReadRequest tid unitId addr count = .error .invalidParameters) ∧
    (1 ≤ count.toNat → count.toNat ≤ 125 →
      encodeReadRequest tid unitId addr count =
        .ok [hi8 tid, lo8 tid, 0x00, 0x00, 0x00, 0x06, unitId, 0x03, hi8 addr, lo8 addr,
          hi8 count, lo8 count])

/-- R121: `encodeWriteRequest`, every byte. -/
def Obligations.WriteRequestBytes : Prop :=
  ∀ (tid : U16) (unitId : Byte) (addr : U16) (values : List U16),
    ((values.length = 0 ∨ 123 < values.length) →
      encodeWriteRequest tid unitId addr values = .error .invalidParameters) ∧
    (1 ≤ values.length → values.length ≤ 123 →
      encodeWriteRequest tid unitId addr values =
        .ok ([hi8 tid, lo8 tid, 0x00, 0x00, 0x00, BitVec.ofNat 8 (7 + 2 * values.length), unitId, 0x10,
          hi8 addr, lo8 addr, 0x00, BitVec.ofNat 8 values.length,
          BitVec.ofNat 8 (2 * values.length)] ++ serialize values))

/-- R122: the length field of every request frame, and the two sizes. -/
def Obligations.LengthFieldLaw : Prop :=
  (∀ tid unitId addr count frame, encodeReadRequest tid unitId addr count = .ok frame →
    (be16 (byteAt frame 4) (byteAt frame 5)).toNat = frame.length - 6 ∧ frame.length = 12) ∧
  (∀ tid unitId addr values frame, encodeWriteRequest tid unitId addr values = .ok frame →
    (be16 (byteAt frame 4) (byteAt frame 5)).toNat = frame.length - 6 ∧
    (be16 (byteAt frame 4) (byteAt frame 5)).toNat = 7 + 2 * values.length ∧
    frame.length = 13 + 2 * values.length)

/-- R123: every argument of an encoder can be read back from its frame. -/
def Obligations.EncoderArgumentsReadBack : Prop :=
  (∀ tid unitId addr count frame, encodeReadRequest tid unitId addr count = .ok frame →
    be16 (byteAt frame 0) (byteAt frame 1) = tid ∧ byteAt frame 6 = unitId ∧
    be16 (byteAt frame 8) (byteAt frame 9) = addr ∧
    be16 (byteAt frame 10) (byteAt frame 11) = count) ∧
  (∀ tid unitId addr values frame, encodeWriteRequest tid unitId addr values = .ok frame →
    be16 (byteAt frame 0) (byteAt frame 1) = tid ∧ byteAt frame 6 = unitId ∧
    be16 (byteAt frame 8) (byteAt frame 9) = addr ∧
    (be16 (byteAt frame 10) (byteAt frame 11)).toNat = values.length ∧
    deserialize frame 13 (be16 (byteAt frame 10) (byteAt frame 11)).toNat = values)

/-! ### Decoders -/

/-- R133: `decodeReadResponse` by cases, line by line of the rule's table. -/
def Obligations.ReadResponseByCases : Prop :=
  ∀ (b : List Byte) (n : Nat),
    (b.length < 9 → decodeReadResponse b n = .error .malformedFrame) ∧
    (9 ≤ b.length → byteAt b 7 = 0x83 →
      decodeReadResponse b n = .error (.deviceException (byteAt b 8))) ∧
    (9 ≤ b.length → b.length < 9 + 2 * n → byteAt b 7 ≠ 0x83 →
      decodeReadResponse b n = .error .malformedFrame) ∧
    (9 + 2 * n ≤ b.length → byteAt b 7 ≠ 0x03 → byteAt b 7 ≠ 0x83 →
      decodeReadResponse b n = .error .protocolError) ∧
    (9 + 2 * n ≤ b.length → byteAt b 7 = 0x03 → (byteAt b 8).toNat ≠ 2 * n →
      decodeReadResponse b n = .error .protocolError) ∧
    (9 + 2 * n ≤ b.length → byteAt b 7 = 0x03 → (byteAt b 8).toNat = 2 * n →
      decodeReadResponse b n = .ok ((List.range n).map fun i =>
        be16 (byteAt b (9 + 2 * i)) (byteAt b (9 + 2 * i + 1))))

/-- R139: `decodeWriteResponse` by cases, line by line of the rule's table. -/
def Obligations.WriteResponseByCases : Prop :=
  ∀ (b : List Byte) (addr count : U16),
    (b.length < 9 → decodeWriteResponse b addr count = .error .malformedFrame) ∧
    (9 ≤ b.length → byteAt b 7 = 0x90 →
      decodeWriteResponse b addr count = .error (.deviceException (byteAt b 8))) ∧
    (9 ≤ b.length → b.length < 12 → byteAt b 7 ≠ 0x90 →
      decodeWriteResponse b addr count = .error .malformedFrame) ∧
    (12 ≤ b.length → byteAt b 7 ≠ 0x10 → byteAt b 7 ≠ 0x90 →
      decodeWriteResponse b addr count = .error .protocolError) ∧
    (12 ≤ b.length → byteAt b 7 = 0x10 → be16 (byteAt b 8) (byteAt b 9) ≠ addr →
      decodeWriteResponse b addr count = .error .protocolError) ∧
    (12 ≤ b.length → byteAt b 7 = 0x10 → be16 (byteAt b 8) (byteAt b 9) = addr →
      be16 (byteAt b 10) (byteAt b 11) ≠ count →
      decodeWriteResponse b addr count = .error .protocolError) ∧
    (12 ≤ b.length → byteAt b 7 = 0x10 → be16 (byteAt b 8) (byteAt b 9) = addr →
      be16 (byteAt b 10) (byteAt b 11) = count → decodeWriteResponse b addr count = .ok ())

/-- R134: the round trip of reads. -/
def Obligations.ReadResponseRoundTrip : Prop :=
  ∀ (tid : U16) (unitId : Byte) (values : List U16), 1 ≤ values.length → values.length ≤ 125 →
    decodeReadResponse (rdRsp tid unitId values) values.length = .ok values

/-- R140: the echo law of writes. -/
def Obligations.WriteEchoLaw : Prop :=
  ∀ (tid : U16) (unitId : Byte) (addr count : U16),
    decodeWriteResponse (wrRsp tid unitId addr count) addr count = .ok () ∧
    ∀ addr' count' : U16, addr' ≠ addr ∨ count' ≠ count →
      decodeWriteResponse (wrRsp tid unitId addr' count') addr count = .error .protocolError

/-- R142: a decoder's answer depends on no offset at or beyond the buffer's length, and on none of the
first seven bytes (so not on the MBAP length field). -/
def Obligations.DecodersReadOnlyInsideTheBuffer : Prop :=
  ∀ (len : Nat) (rd rd' : Nat → Byte), (∀ i, 7 ≤ i → i < len → rd i = rd' i) →
    (∀ n, decodeReadFrom len rd n = decodeReadFrom len rd' n) ∧
    (∀ addr count, decodeWriteFrom len rd addr count = decodeWriteFrom len rd' addr count)

/-- R143: a function code with bit 7 set is never a value. -/
def Obligations.ExceptionBitIsNeverAValue : Prop :=
  ∀ b : List Byte, 128 ≤ (byteAt b 7).toNat →
    (∀ n,
      (9 ≤ b.length ∧ byteAt b 7 = 0x83 ∧
        decodeReadResponse b n = .error (.deviceException (byteAt b 8))) ∨
      (¬(9 ≤ b.length ∧ byteAt b 7 = 0x83) ∧
        (decodeReadResponse b n = .error .protocolError ∨
          decodeReadResponse b n = .error .malformedFrame))) ∧
    (∀ addr count,
      (9 ≤ b.length ∧ byteAt b 7 = 0x90 ∧
        decodeWriteResponse b addr count = .error (.deviceException (byteAt b 8))) ∨
      (¬(9 ≤ b.length ∧ byteAt b 7 = 0x90) ∧
        (decodeWriteResponse b addr count = .error .protocolError ∨
          decodeWriteResponse b addr count = .error .malformedFrame)))

/-! ### The rows that are calls of codec functions -/

/-- R23, R47 d, R110, R111, R120, R121: the calls return the function's value and change nothing else
(that the value is recorded in `outputs` is the model's choice, log 9; that `deserialize` outside its
precondition answers `MalformedFrame` is too, log 12). -/
def Obligations.CodecCallsReturnAndChangeNothingElse : Prop :=
  ∀ s : State,
    (∀ tid unitId addr count, 1 ≤ count.toNat → count.toNat ≤ 125 →
      exec (.rdReq tid unitId addr count) s = .next
        { s with
          outputs := s.outputs ++ [.returned (.bytes
            [hi8 tid, lo8 tid, 0x00, 0x00, 0x00, 0x06, unitId, 0x03, hi8 addr, lo8 addr,
              hi8 count, lo8 count])] }) ∧
    (∀ tid unitId addr count, count = 0 ∨ 125 < count.toNat →
      exec (.rdReq tid unitId addr count) s =
        .next { s with outputs := s.outputs ++ [.returned (.err .invalidParameters)] }) ∧
    (∀ tid unitId addr values, 1 ≤ values.length → values.length ≤ 123 →
      exec (.wrReq tid unitId addr values) s = .next
        { s with
          outputs := s.outputs ++ [.returned (.bytes
            ([hi8 tid, lo8 tid, 0x00, 0x00, 0x00, BitVec.ofNat 8 (7 + 2 * values.length), unitId, 0x10,
              hi8 addr, lo8 addr, 0x00, BitVec.ofNat 8 values.length,
              BitVec.ofNat 8 (2 * values.length)] ++ serialize values))] }) ∧
    (∀ tid unitId addr values, values.length = 0 ∨ 123 < values.length →
      exec (.wrReq tid unitId addr values) s =
        .next { s with outputs := s.outputs ++ [.returned (.err .invalidParameters)] }) ∧
    (∀ values : List U16, exec (.serialize (values.map BitVec.toNat)) s =
      .next { s with outputs := s.outputs ++ [.returned (.bytes (serialize values))] }) ∧
    (∀ buffer offset n, offset + 2 * n ≤ buffer.length →
      exec (.deserialize buffer offset n) s =
        .next { s with outputs := s.outputs ++ [.returned (.values (deserialize buffer offset n))] }) ∧
    (∀ buffer offset n, buffer.length < offset + 2 * n →
      exec (.deserialize buffer offset n) s =
        .next { s with outputs := s.outputs ++ [.returned (.err .malformedFrame)] })

/-! ### Submissions -/

/-- R209, R214.1, R178: every rejection, in the order `Closed`, `Busy`, `InvalidParameters`, and that
it changes no element of state; whatever naturals the other operands are. -/
def Obligations.RejectedSubmissionsChangeNoState : Prop :=
  ∀ s : State,
    (s.state = .closed →
      (∀ addr count, exec (.submitRead addr count) s =
        .next { s with outputs := s.outputs ++ [.reject .closed] }) ∧
      (∀ addr values, exec (.submitWrite addr values) s =
        .next { s with outputs := s.outputs ++ [.reject .closed] })) ∧
    (∀ p t, s.state = .awaitingResponse p t →
      (∀ addr count, exec (.submitRead addr count) s =
        .next { s with outputs := s.outputs ++ [.reject .busy] }) ∧
      (∀ addr values, exec (.submitWrite addr values) s =
        .next { s with outputs := s.outputs ++ [.reject .busy] })) ∧
    (s.state = .idle →
      (∀ addr count, count = 0 ∨ 125 < count → exec (.submitRead addr count) s =
        .next { s with outputs := s.outputs ++ [.reject .invalidParameters] }) ∧
      (∀ addr values, values.length = 0 ∨ 123 < values.length → exec (.submitWrite addr values) s =
        .next { s with outputs := s.outputs ++ [.reject .invalidParameters] }))

/-- R124, D27, R201: an operand that does not fit its field is refused with `InvalidParameters`, never
truncated, and no element of state changes. That the configuration events and `serialize` give the error
back to their caller, `CfgTimeout` included, is the model's reading (log 19). -/
def Obligations.OperandsThatDoNotFitAreInvalidParameters : Prop :=
  ∀ s : State,
    (s.state = .idle →
      (∀ addr count, 65536 ≤ addr ∨ 65536 ≤ count → exec (.submitRead addr count) s =
        .next { s with outputs := s.outputs ++ [.reject .invalidParameters] }) ∧
      (∀ addr values, 65536 ≤ addr ∨ (∃ v ∈ values, 65536 ≤ v) → exec (.submitWrite addr values) s =
        .next { s with outputs := s.outputs ++ [.reject .invalidParameters] })) ∧
    (∀ u, 256 ≤ u → exec (.cfgUnit u) s =
      .next { s with outputs := s.outputs ++ [.returned (.err .invalidParameters)] }) ∧
    (∀ t, 2 ^ 32 ≤ t → exec (.cfgTimeout t) s =
      .next { s with outputs := s.outputs ++ [.returned (.err .invalidParameters)] }) ∧
    (∀ values, (∃ v ∈ values, 65536 ≤ v) → exec (.serialize values) s =
      .next { s with outputs := s.outputs ++ [.returned (.err .invalidParameters)] })

/-- R160: an accepted read when no complete frame is buffered. Every element of state that is not
named keeps its value. -/
def Obligations.AcceptedReadIsSentAndAwaited : Prop :=
  ∀ (s : State) (addr count : U16), s.state = .idle → 1 ≤ count.toNat → count.toNat ≤ 125 →
    frameAvailable s.rxbuf = none →
    exec (.submitRead addr.toNat count.toNat) s = .next
      { s with
        state := .awaitingResponse ⟨.read, s.nextTid, addr, count⟩ s.timeout
        nextTid := s.nextTid + 1
        outputs := s.outputs ++
          [.tx [hi8 s.nextTid, lo8 s.nextTid, 0x00, 0x00, 0x00, 0x06, s.unitId, 0x03, hi8 addr,
            lo8 addr, hi8 count, lo8 count]] }

/-- R161: an accepted write when no complete frame is buffered. Every element of state that is not
named keeps its value: the values written are not kept. -/
def Obligations.AcceptedWriteIsSentAndAwaited : Prop :=
  ∀ (s : State) (addr : U16) (values : List U16), s.state = .idle → 1 ≤ values.length →
    values.length ≤ 123 → frameAvailable s.rxbuf = none →
    exec (.submitWrite addr.toNat (values.map BitVec.toNat)) s = .next
      { s with
        state := .awaitingResponse ⟨.write, s.nextTid, addr, BitVec.ofNat 16 values.length⟩ s.timeout
        nextTid := s.nextTid + 1
        outputs := s.outputs ++
          [.tx ([hi8 s.nextTid, lo8 s.nextTid, 0x00, 0x00, 0x00,
            BitVec.ofNat 8 (7 + 2 * values.length), s.unitId, 0x10, hi8 addr, lo8 addr, 0x00,
            BitVec.ofNat 8 values.length, BitVec.ofNat 8 (2 * values.length)] ++
            serialize values)] }

/-- R160 corner case (a), R166, D13: a complete frame already buffered resolves the operation inside
the submission's step, after the `Tx` (`val` by log 4). -/
def Obligations.BufferedFrameResolvesTheSubmission : Prop :=
  ∀ (s : State) (size : Nat), s.state = .idle → frameAvailable s.rxbuf = some size →
    (∀ addr count frame, encodeReadRequest s.nextTid s.unitId addr count = .ok frame →
      exec (.submitRead addr.toNat count.toNat) s = .next
        { s with
          nextTid := s.nextTid + 1
          rxbuf := s.rxbuf.drop size
          val := valAfter (answer ⟨.read, s.nextTid, addr, count⟩ (s.rxbuf.take size)) s.val
          outputs := s.outputs ++ [.tx frame,
            .resolve (answer ⟨.read, s.nextTid, addr, count⟩ (s.rxbuf.take size))] }) ∧
    (∀ addr values frame, encodeWriteRequest s.nextTid s.unitId addr values = .ok frame →
      exec (.submitWrite addr.toNat (values.map BitVec.toNat)) s = .next
        { s with
          nextTid := s.nextTid + 1
          rxbuf := s.rxbuf.drop size
          outputs := s.outputs ++ [.tx frame,
            .resolve (answer ⟨.write, s.nextTid, addr, BitVec.ofNat 16 values.length⟩
              (s.rxbuf.take size))] })

/-- R253: a complete stale frame in `rxbuf` makes the next read fail with `ProtocolError` in its own
step, and the request is sent all the same. -/
def Obligations.StaleFrameFailsTheNextRead : Prop :=
  ∀ (s : State) (frame surplus : List Byte) (addr count : U16), s.state = .idle →
    s.rxbuf = frame ++ surplus → frameAvailable frame = some frame.length →
    be16 (byteAt frame 0) (byteAt frame 1) ≠ s.nextTid → 1 ≤ count.toNat → count.toNat ≤ 125 →
    exec (.submitRead addr.toNat count.toNat) s = .next
      { s with
        nextTid := s.nextTid + 1
        rxbuf := surplus
        outputs := s.outputs ++ [.tx (rdReqFrame s.nextTid s.unitId addr count),
          .resolve (.err .protocolError)] }

/-! ### Framing, correlation, reception -/

/-- R156: `frame_available`, with the sum computed without wrap-around. -/
def Obligations.FramingRule : Prop :=
  ∀ rxbuf : List Byte,
    (rxbuf.length < 6 → frameAvailable rxbuf = none) ∧
    (6 ≤ rxbuf.length → rxbuf.length < 6 + (be16 (byteAt rxbuf 4) (byteAt rxbuf 5)).toNat →
      frameAvailable rxbuf = none) ∧
    (6 ≤ rxbuf.length → 6 + (be16 (byteAt rxbuf 4) (byteAt rxbuf 5)).toNat ≤ rxbuf.length →
      frameAvailable rxbuf = some (6 + (be16 (byteAt rxbuf 4) (byteAt rxbuf 5)).toNat))

/-- R157, R83, R166: the result of a complete frame: correlation before any decoder, then the decoder
that the outstanding request's kind selects. -/
def Obligations.CompleteFrameOutcome : Prop :=
  ∀ (p : Pend) (frame : List Byte),
    (be16 (byteAt frame 0) (byteAt frame 1) ≠ p.tid → answer p frame = .err .protocolError) ∧
    (be16 (byteAt frame 0) (byteAt frame 1) = p.tid → p.kind = .read →
      (∀ vs, decodeReadResponse frame p.count.toNat = .ok vs → answer p frame = .okValues vs) ∧
      (∀ e, decodeReadResponse frame p.count.toNat = .error e → answer p frame = .err e)) ∧
    (be16 (byteAt frame 0) (byteAt frame 1) = p.tid → p.kind = .write →
      (decodeWriteResponse frame p.addr p.count = .ok () → answer p frame = .okWritten) ∧
      (∀ e, decodeWriteResponse frame p.addr p.count = .error e → answer p frame = .err e))

/-- R88, R50: the protocol id and the unit id of a response (offsets 2, 3, 6) are never read: two
buffers that differ only there frame alike and give the same result. -/
def Obligations.UnexaminedHeaderFields : Prop :=
  ∀ xs ys : List Byte, xs.length = ys.length →
    (∀ i, i ≠ 2 → i ≠ 3 → i ≠ 6 → byteAt xs i = byteAt ys i) →
    frameAvailable xs = frameAvailable ys ∧ ∀ p, answer p xs = answer p ys

/-- R259: what success proves. -/
def Obligations.WhatSuccessProves : Prop :=
  ∀ (p : Pend) (frame : List Byte),
    (∀ vs, answer p frame = .okValues vs →
      p.kind = .read ∧ be16 (byteAt frame 0) (byteAt frame 1) = p.tid ∧ byteAt frame 7 = 0x03 ∧
      (byteAt frame 8).toNat = 2 * p.count.toNat ∧ 9 + 2 * p.count.toNat ≤ frame.length ∧
      vs = deserialize frame 9 p.count.toNat) ∧
    (answer p frame = .okWritten →
      p.kind = .write ∧ be16 (byteAt frame 0) (byteAt frame 1) = p.tid ∧ byteAt frame 7 = 0x10 ∧
      be16 (byteAt frame 8) (byteAt frame 9) = p.addr ∧
      be16 (byteAt frame 10) (byteAt frame 11) = p.count)

/-- R44, R177: the grouping of received bytes into chunks is immaterial, whatever events come before
and after. -/
def Obligations.ChunkingIsImmaterial : Prop :=
  ∀ (pre post : List Instr) (chunks chunks' : List (List Byte)) (s : State),
    chunks.flatten = chunks'.flatten →
    execAll (pre ++ chunks.map Instr.rx ++ post) s = execAll (pre ++ chunks'.map Instr.rx ++ post) s

/-- R165 (c), R151: bytes that arrive in `Idle` are kept, all of them, and nothing else happens. -/
def Obligations.RxInIdleKeepsTheBytes : Prop :=
  ∀ (bytes : List Byte) (s : State), s.state = .idle → RoomFor s bytes.length →
    exec (.rx bytes) s = .next { s with rxbuf := s.rxbuf ++ bytes }

/-- R165 (e), R151: bytes that arrive in `Closed` are dropped. -/
def Obligations.RxInClosedDropsTheBytes : Prop :=
  ∀ (bytes : List Byte) (s : State), s.state = .closed → exec (.rx bytes) s = .next s

/-- R165, R156: while the frame is incomplete the block keeps the bytes and waits. -/
def Obligations.RxOfAnIncompleteFrameWaits : Prop :=
  ∀ (bytes : List Byte) (s : State) (p : Pend) (t : Ticks), s.state = .awaitingResponse p t →
    frameAvailable (s.rxbuf ++ bytes) = none → RoomFor s bytes.length →
    exec (.rx bytes) s = .next { s with rxbuf := s.rxbuf ++ bytes }

/-- R44, R81, R165, R166, R211: reassembly. However the bytes of a frame, and any surplus behind it,
are cut into chunks, and wherever in the frame the block already stands, exactly that frame is
consumed, the operation resolves once with the frame's result, and the surplus is kept (`val` by
log 4). -/
def Obligations.ReassemblyOfOneFrame : Prop :=
  ∀ (s : State) (p : Pend) (t : Ticks) (chunks : List (List Byte)) (frame surplus : List Byte),
    s.state = .awaitingResponse p t → frameAvailable s.rxbuf = none →
    s.rxbuf ++ chunks.flatten = frame ++ surplus → frameAvailable frame = some frame.length →
    RoomFor s chunks.flatten.length →
    execAll (chunks.map Instr.rx) s = .next
      { s with
        state := .idle
        rxbuf := surplus
        val := valAfter (answer p frame) s.val
        outputs := s.outputs ++ [.resolve (answer p frame)] }

/-- R252: an `Rx` that would exceed a finite capacity has no meaning and is refused. -/
def Obligations.RxBeyondCapacityIsRefused : Prop :=
  ∀ (bytes : List Byte) (s : State) (c : Nat), s.params.rxCapacity = some c → s.rxbuf.length ≤ c →
    c < s.rxbuf.length + bytes.length →
    (s.state = .idle ∨
      ∃ p t, s.state = .awaitingResponse p t ∧ frameAvailable (s.rxbuf ++ bytes) = none) →
    exec (.rx bytes) s = .refused .rxOverflow

/-- R40, R165: whatever bytes come on the response channel, the block does with them what `Rx` does
(that the four response rows are arrivals is the model's reading, log 10). -/
def Obligations.ResponseBytesAreReceived : Prop :=
  ∀ (bytes : List Byte) (i : Instr) (s : State), decode ⟨.response, bytes⟩ = .ok i →
    exec i s = exec (.rx bytes) s

/-- R74, R132, R166: a well-delimited normal read response, arriving whole, completes the outstanding
read (`val` by log 4, the row as an arrival by log 10). -/
def Obligations.ReadResponseCompletesTheRead : Prop :=
  ∀ (s : State) (p : Pend) (t : Ticks) (h : Mbap) (byteCount : Byte) (rest : List Byte),
    s.state = .awaitingResponse p t → p.kind = .read → s.rxbuf = [] → h.tid = p.tid →
    h.length.toNat = 3 + rest.length → byteCount.toNat = 2 * p.count.toNat →
    2 * p.count.toNat ≤ rest.length → RoomFor s (9 + rest.length) →
    exec (.rdRsp h byteCount rest) s = .next
      { s with
        state := .idle
        val := deserialize rest 0 p.count.toNat
        outputs := s.outputs ++ [.resolve (.okValues (deserialize rest 0 p.count.toNat))] }

/-- R75, R138, R166: a well-delimited write response that echoes address and count completes the
outstanding write; a wrong echo leaves it unconfirmed (the row as an arrival by log 10). -/
def Obligations.WriteResponseCompletesTheWrite : Prop :=
  ∀ (s : State) (p : Pend) (t : Ticks) (h : Mbap) (addr count : U16) (rest : List Byte),
    s.state = .awaitingResponse p t → p.kind = .write → s.rxbuf = [] → h.tid = p.tid →
    h.length.toNat = 6 + rest.length → RoomFor s (12 + rest.length) →
    (addr = p.addr ∧ count = p.count → exec (.wrRsp h addr count rest) s = .next
      { s with state := .idle, outputs := s.outputs ++ [.resolve .okWritten] }) ∧
    (addr ≠ p.addr ∨ count ≠ p.count → exec (.wrRsp h addr count rest) s = .next
      { s with state := .idle, outputs := s.outputs ++ [.resolve (.err .protocolError)] })

/-- R76, R131, R137, R166: a well-delimited exception response to the outstanding request resolves it
with the device's code (the rows as arrivals by log 10). -/
def Obligations.ExceptionResponseResolvesWithItsCode : Prop :=
  ∀ (s : State) (p : Pend) (t : Ticks) (h : Mbap) (code : Byte) (rest : List Byte),
    s.state = .awaitingResponse p t → s.rxbuf = [] → h.tid = p.tid →
    h.length.toNat = 3 + rest.length → RoomFor s (9 + rest.length) →
    (p.kind = .read → exec (.rdExc h code rest) s = .next
      { s with
        state := .idle, outputs := s.outputs ++ [.resolve (.err (.deviceException code))] }) ∧
    (p.kind = .write → exec (.wrExc h code rest) s = .next
      { s with
        state := .idle, outputs := s.outputs ++ [.resolve (.err (.deviceException code))] })

/-! ### Timer, failures, close, configuration -/

/-- R171: `Tick` in every state; and the counting: with `timer_rem = T` the operation still waits after
fewer than `T` ticks and times out at the `T`-th (at the first for `T = 0`), if nothing else comes. -/
def Obligations.TickCountsDownAndTimesOut : Prop :=
  (∀ s : State,
    (s.state = .idle ∨ s.state = .closed → exec .tick s = .next s) ∧
    (∀ p t, s.state = .awaitingResponse p t → t.toNat ≤ 1 → exec .tick s = .next
      { s with state := .idle, rxbuf := [], outputs := s.outputs ++ [.resolve (.err .timeout)] }) ∧
    (∀ p t, s.state = .awaitingResponse p t → 1 < t.toNat → exec .tick s = .next
      { s with state := .awaitingResponse p (t - 1) })) ∧
  (∀ (s : State) (p : Pend) (t : Ticks), s.state = .awaitingResponse p t →
    (∀ k, k < max 1 t.toNat → execAll (List.replicate k .tick) s = .next
      { s with state := .awaitingResponse p (t - BitVec.ofNat 32 k) }) ∧
    execAll (List.replicate (max 1 t.toNat) .tick) s = .next
      { s with state := .idle, rxbuf := [], outputs := s.outputs ++ [.resolve (.err .timeout)] })

/-- R172: `TransportError`. -/
def Obligations.TransportErrorRule : Prop :=
  ∀ s : State,
    (s.state = .closed → exec .transportError s = .next s) ∧
    (s.state = .idle → exec .transportError s = .next { s with rxbuf := [] }) ∧
    (∀ p t, s.state = .awaitingResponse p t → exec .transportError s = .next
      { s with
        state := .idle, rxbuf := [], outputs := s.outputs ++ [.resolve (.err .transportError)] })

/-- R173: `Close`. -/
def Obligations.CloseRule : Prop :=
  ∀ s : State,
    (s.state = .closed → exec .close s = .next s) ∧
    (s.state = .idle → exec .close s = .next { s with state := .closed, rxbuf := [] }) ∧
    (∀ p t, s.state = .awaitingResponse p t → exec .close s = .next
      { s with state := .closed, rxbuf := [], outputs := s.outputs ++ [.resolve (.err .closed)] })

/-- R174, R175: the configuration events write their register, in any state, and nothing else: for every
byte, and for every number of `TIMEOUT_W` bits. -/
def Obligations.ConfigurationWritesOnlyItsRegister : Prop :=
  ∀ s : State,
    (∀ u : Byte, exec (.cfgUnit u.toNat) s = .next { s with unitId := u }) ∧
    (∀ t : Ticks, exec (.cfgTimeout t.toNat) s = .next { s with timeout := t })

/-- R182, R173: in `Closed` the only output left is `Reject(Closed)` (and what a call returns to its
caller, which is none of R150's outputs: log 9, log 19), and but for the configuration registers nothing changes. -/
def Obligations.ClosedIsQuiet : Prop :=
  ∀ (i : Instr) (s t : State), s.state = .closed → i ≠ .reset → exec i s = .next t →
    (∃ os, t = { s with unitId := t.unitId, timeout := t.timeout, outputs := s.outputs ++ os } ∧
      ∀ o ∈ os, o = .reject .closed ∨ ∃ r, o = .returned r)

/-! ### The whole machine -/

/-- R24.3 to R24.5, R10, R18, R252 hold of the state after reset. -/
def Obligations.InvariantsHoldAtReset : Prop := StateInv State.reset

/-- R24: every step keeps the invariants, from every state that has them. -/
def Obligations.EveryStepKeepsTheInvariants : Prop :=
  ∀ s t : State, StateInv s → step s = .next t → StateInv t

/-- R153, R24.6: single resolution, over every run without a `Reset`: `Resolve` outputs plus the
request outstanding at the end are `Tx` outputs plus the request outstanding at the start. -/
def Obligations.EveryAcceptedSubmissionResolvesOnce : Prop :=
  ∀ (is : List Instr) (s t : State), Instr.reset ∉ is → execAll is s = .next t →
    resolveCount t.outputs + outstanding t + txCount s.outputs =
      resolveCount s.outputs + outstanding s + txCount t.outputs

/-- R13, R155: `next_tid` advances, modulo 65536, by the number of requests sent; only `Reset` sets it
otherwise. -/
def Obligations.IdentifiersCountRequestsSent : Prop :=
  ∀ (i : Instr) (s t : State), i ≠ .reset → exec i s = .next t →
    ∃ k, txCount t.outputs = txCount s.outputs + k ∧ t.nextTid = s.nextTid + BitVec.ofNat 16 k

/-- R11, R13, R14, R15, R181, R240: which instruction may write what, over the whole table. But for `Reset`,
`val` changes only to the values that a `Resolve` of the same step delivers (R166; the reading of log 4).
That every instruction, `Reset` included, leaves `params` and `inputs` and only adds to `outputs` is the
model's (log 1, log 2, log 6, log 16), and `hasBeenReset` its own field (log 14). -/
def Obligations.WhoWritesWhat : Prop :=
  ∀ (i : Instr) (s t : State), exec i s = .next t →
    t.params = s.params ∧ t.inputs = s.inputs ∧
    (∃ os, t.outputs = s.outputs ++ os ∧
      (i ≠ .reset → t.val = s.val ∨ .resolve (.okValues t.val) ∈ os)) ∧
    (i ≠ .reset → t.hasBeenReset = s.hasBeenReset) ∧
    (i ≠ .reset → (∀ u, i ≠ .cfgUnit u) → t.unitId = s.unitId) ∧
    (i ≠ .reset → (∀ d, i ≠ .cfgTimeout d) → t.timeout = s.timeout) ∧
    (i ≠ .reset → (∀ a c, i ≠ .submitRead a c) → (∀ a vs, i ≠ .submitWrite a vs) →
      t.nextTid = s.nextTid)

/-- No refusal on an instruction that can run: with `rxbuf` unbounded every instruction of the table
completes in every state, and the only stop there is at all is R252's. -/
def Obligations.EveryInstructionCompletes : Prop :=
  (∀ (i : Instr) (s : State), s.params.rxCapacity = none → ∃ t, exec i s = .next t) ∧
  (∀ (i : Instr) (s : State) (r : Refusal), exec i s = .refused r →
    r = .rxOverflow ∧ ∃ c, s.params.rxCapacity = some c)
end

