-- ==== Sys2Proof/Laws/Operands.lean ====
section
/-! SUPPORT. The laws of byte order and of the register serializer (R8, R41, R110 to R112), and of the width of the caller's operands (R124). -/

namespace Sys2Proof.Machine

/-- R8: `be16(h, l) = 256*h + l`. -/
theorem be16_toNat (h l : Byte) : (be16 h l).toNat = 256 * h.toNat + l.toNat := by
  simp only [be16, BitVec.toNat_append, Nat.shiftLeft_eq, Nat.mul_comm h.toNat]
  rw [show (256 : Nat) = 2 ^ 8 from rfl, Nat.two_pow_add_eq_or_of_lt l.isLt]

theorem hi8_toNat (v : U16) : (hi8 v).toNat = v.toNat / 256 := by
  have := v.isLt
  simp only [hi8, BitVec.extractLsb'_toNat, Nat.shiftRight_eq_div_pow]
  omega

theorem lo8_toNat (v : U16) : (lo8 v).toNat = v.toNat % 256 := by
  simp [lo8, BitVec.extractLsb'_toNat]

@[simp] theorem hi8_be16 (h l : Byte) : hi8 (be16 h l) = h := by
  apply BitVec.eq_of_toNat_eq
  rw [hi8_toNat, be16_toNat]
  omega

@[simp] theorem lo8_be16 (h l : Byte) : lo8 (be16 h l) = l := by
  apply BitVec.eq_of_toNat_eq
  rw [lo8_toNat, be16_toNat]
  omega

/-- R8: `be16(hi8(v), lo8(v)) = v`. -/
@[simp] theorem be16_hi8_lo8 (v : U16) : be16 (hi8 v) (lo8 v) = v := by
  apply BitVec.eq_of_toNat_eq
  rw [be16_toNat, hi8_toNat, lo8_toNat]
  omega

@[simp] theorem be16Bytes_length (v : U16) : (be16Bytes v).length = 2 := rfl

@[simp] theorem serialize_nil : serialize [] = [] := rfl

@[simp] theorem serialize_cons (v : U16) (vs : List U16) :
    serialize (v :: vs) = hi8 v :: lo8 v :: serialize vs := rfl

@[simp] theorem serialize_length (vs : List U16) : (serialize vs).length = 2 * vs.length := by
  induction vs with
  | nil => rfl
  | cons v vs ih => simp [ih]; omega

@[simp] theorem deserializeFrom_length (rd : Nat → Byte) (offset n : Nat) :
    (deserializeFrom rd offset n).length = n := by
  simp [deserializeFrom]

@[simp] theorem byteAt_cons_zero (b : Byte) (bs : List Byte) : byteAt (b :: bs) 0 = b := rfl

@[simp] theorem byteAt_cons_succ (b : Byte) (bs : List Byte) (i : Nat) :
    byteAt (b :: bs) (i + 1) = byteAt bs i := by
  simp [byteAt]

theorem byteAt_append_left (xs ys : List Byte) (i : Nat) (h : i < xs.length) :
    byteAt (xs ++ ys) i = byteAt xs i := by
  simp [byteAt, List.getElem?_append_left h]

theorem byteAt_append_right (xs ys : List Byte) (i : Nat) :
    byteAt (xs ++ ys) (xs.length + i) = byteAt ys i := by
  simp [byteAt, List.getElem?_append_right]

/-- One register more at the front moves the rest by two bytes. -/
theorem deserializeFrom_succ (rd : Nat → Byte) (offset n : Nat) :
    deserializeFrom rd offset (n + 1) =
      be16 (rd offset) (rd (offset + 1)) :: deserializeFrom rd (offset + 2) n := by
  simp only [deserializeFrom, List.range_succ_eq_map, List.map_cons, List.map_map]
  congr 1
  apply List.map_congr_left
  intro i _
  simp only [Function.comp]
  congr 2 <;> omega

/-- `deserialize` reads only the offsets `offset .. offset + 2n - 1` (R142). -/
theorem deserializeFrom_congr (rd rd' : Nat → Byte) (offset n : Nat)
    (h : ∀ i, offset ≤ i → i < offset + 2 * n → rd i = rd' i) :
    deserializeFrom rd offset n = deserializeFrom rd' offset n := by
  simp only [deserializeFrom]
  apply List.map_congr_left
  intro i hi
  have := List.mem_range.mp hi
  rw [h _ (by omega) (by omega), h _ (by omega) (by omega)]

/-- R124: an operand of its field's width goes in unchanged. -/
@[simp] theorem narrow_toNat {w : Nat} (v : BitVec w) : narrow w v.toNat = some v := by
  simp [narrow, v.isLt]

/-- R124, D27: what `narrow` answers is the operand itself, never a truncation. -/
theorem narrow_eq_some {w n : Nat} {v : BitVec w} : narrow w n = some v ↔ n = v.toNat := by
  unfold narrow
  constructor
  · intro h
    split at h
    · cases h
      rw [BitVec.toNat_ofNat, Nat.mod_eq_of_lt (by assumption)]
    · cases h
  · rintro rfl
    simp [v.isLt]

theorem narrow_eq_none {w n : Nat} : narrow w n = none ↔ 2 ^ w ≤ n := by
  simp [narrow]

@[simp] theorem narrowAll_nil : narrowAll [] = some [] := rfl

@[simp] theorem narrowAll_toNat (vs : List U16) : narrowAll (vs.map BitVec.toNat) = some vs := by
  induction vs with
  | nil => rfl
  | cons v vs ih => simp [narrowAll, ih]

theorem narrowAll_eq_some {ns : List Nat} {vs : List U16} :
    narrowAll ns = some vs ↔ ns = vs.map BitVec.toNat := by
  constructor
  · intro h
    induction ns generalizing vs with
    | nil => cases h; rfl
    | cons n ns ih =>
      simp only [narrowAll] at h
      split at h
      · rename_i v ws hv hw
        cases h
        rw [List.map_cons, ← ih hw, ← narrow_eq_some.mp hv]
      · cases h
      · cases h
  · rintro rfl
    simp

theorem narrowAll_eq_none {ns : List Nat} : narrowAll ns = none ↔ ∃ n ∈ ns, 65536 ≤ n := by
  induction ns with
  | nil => simp
  | cons n ns ih =>
    simp only [narrowAll, List.mem_cons, exists_eq_or_imp, ← ih]
    cases h : narrow 16 n with
    | none => simpa using Or.inl (narrow_eq_none.mp h)
    | some v =>
      have hv : ¬65536 ≤ n := by
        have := v.isLt
        rw [narrow_eq_some.mp h]
        omega
      cases h' : narrowAll ns <;> simp [hv]

end Sys2Proof.Machine
end

