-- ==== Sys2Proof/Laws/Decode.lean ====
section
/-! SUPPORT. What the shared operations of the decoder do on the text the encoder writes: cutting a line
into pieces, numbers, bytes. -/

namespace Sys2Proof

/-- A character of a word: neither a space nor a mark. -/
def isWordChar (b : Byte) : Bool := b != chSpace && !isMark b

/-- The characters of a word go into the word being collected. -/
theorem lexFrom_word (w rest acc : List Byte) (h : w.all isWordChar = true) :
    lexFrom acc (w ++ rest) = lexFrom (acc ++ w) rest := by
  induction w generalizing acc with
  | nil => simp
  | cons b w ih =>
    simp only [List.all_cons, isWordChar, bne_iff_ne, Bool.and_eq_true, Bool.not_eq_true'] at h
    rw [List.cons_append, lexFrom, if_neg h.1.1, if_neg (by simp [h.1.2]), ih _ h.2]
    simp

theorem lexFrom_space (acc rest : List Byte) :
    lexFrom acc (chSpace :: rest) = flushWord acc ++ lexFrom [] rest := by
  simp [lexFrom]

theorem lexFrom_mark (acc rest : List Byte) (m : Byte) (hm : isMark m = true) (hs : m ≠ chSpace) :
    lexFrom acc (m :: rest) = flushWord acc ++ .mark m :: lexFrom [] rest := by
  simp [lexFrom, hm, hs]

theorem flushWord_of_ne_nil (w : List Byte) (h : w ≠ []) : flushWord w = [.word w] := by
  simp [flushWord, h]

theorem isWordChar_hexDigit (d : Nat) (h : d < 16) : isWordChar (hexDigit d) = true := by
  interval_cases d <;> decide

theorem digitVal_hexDigit (d : Nat) (h : d < 16) : digitVal (hexDigit d) = some d := by
  interval_cases d <;> decide

theorem hexDigits_all_isWordChar (k n : Nat) : (hexDigits k n).all isWordChar = true := by
  induction k generalizing n with
  | zero => rfl
  | succ k ih =>
    simp only [hexDigits, List.all_append, ih, Bool.true_and]
    simp [isWordChar_hexDigit _ (Nat.mod_lt n (by norm_num : 16 > 0))]

@[simp] theorem hexDigits_length (k n : Nat) : (hexDigits k n).length = k := by
  induction k generalizing n with
  | zero => rfl
  | succ k ih => simp [hexDigits, ih]

theorem digitsFrom_append (base acc : Nat) (xs ys : List Byte) :
    digitsFrom base acc (xs ++ ys) = (digitsFrom base acc xs).bind fun a => digitsFrom base a ys := by
  induction xs generalizing acc with
  | nil => rfl
  | cons x xs ih =>
    simp only [List.cons_append, digitsFrom]
    cases digitVal x with
    | none => rfl
    | some d => simp only; split <;> simp [ih]

/-- Hexadecimal digits read back. -/
theorem digitsFrom_hexDigits (k n acc : Nat) :
    digitsFrom 16 acc (hexDigits k n) = some (acc * 16 ^ k + n % 16 ^ k) := by
  induction k generalizing n with
  | zero => simp [hexDigits, digitsFrom, Nat.mod_one]
  | succ k ih =>
    have h := Nat.mod_lt n (by norm_num : 16 > 0)
    rw [hexDigits, digitsFrom_append, ih]
    simp only [Option.bind_some, digitsFrom, digitVal_hexDigit _ h, h, if_true]
    congr 1
    rw [pow_succ, Nat.mul_comm (16 ^ k) 16, Nat.mod_mul, Nat.add_mul, Nat.mul_comm 16 (16 ^ k)]
    ring

/-- As many digits as `digitCount` says hold the number. -/
theorem lt_pow_digitCount (least n : Nat) : n < 16 ^ max least (digitCount n) := by
  have h : n < 2 ^ (n.log2 + 1) := Nat.lt_log2_self
  have h2 : 2 ^ (n.log2 + 1) ≤ 2 ^ (4 * max least (digitCount n)) :=
    Nat.pow_le_pow_right (by norm_num) (by unfold digitCount; omega)
  rw [show (16 : Nat) = 2 ^ 4 from rfl, ← pow_mul]
  exact lt_of_lt_of_le h h2

theorem numberText_ne_nil (k n : Nat) : numberText k n ≠ [] := by simp [numberText, ascii]

theorem numberText_all_isWordChar (k n : Nat) : (numberText k n).all isWordChar = true := by
  simp only [numberText, List.all_append, hexDigits_all_isWordChar, Bool.and_true]
  decide

/-- A number in the encoder's spelling reads back, whatever its size. -/
theorem number_numberText (least n : Nat) : number (numberText least n) = some n := by
  have hlen := hexDigits_length (max least (digitCount n)) n
  have hne : hexDigits (max least (digitCount n)) n ≠ [] := by
    intro e
    rw [e] at hlen
    simp only [digitCount, List.length_nil] at hlen
    omega
  change number (0x30 :: 0x78 :: hexDigits (max least (digitCount n)) n) = _
  simp [number, hne, digitsFrom_hexDigits, Nat.mod_eq_of_lt (lt_pow_digitCount least n)]

@[simp] theorem natOf_numberText (least n : Nat) : natOf (numberText least n) = .ok n := by
  simp [natOf, number_numberText]

theorem hexByte_byteText (b : Byte) : hexByte (byteText b) = .ok b := by
  have hb := b.isLt
  have h := digitsFrom_hexDigits 2 b.toNat 0
  have e : hexDigits 2 b.toNat = [hexDigit (b.toNat / 16 % 16), hexDigit (b.toNat % 16)] := by
    simp [hexDigits]
  rw [byteText, e]
  rw [e] at h
  simp only [hexByte, h, Except.ok.injEq]
  apply BitVec.eq_of_toNat_eq
  simp only [BitVec.toNat_ofNat]
  omega

end Sys2Proof
end

