-- ==== Sys2Proof/Laws/State.lean ====
section
/-! SUPPORT. One lemma per field for each update of the state, and what `storeResult` can do. -/

namespace Sys2Proof.Machine

@[simp] theorem emit_state (o : Output) (s : State) : (emit o s).state = s.state := rfl
@[simp] theorem emit_nextTid (o : Output) (s : State) : (emit o s).nextTid = s.nextTid := rfl
@[simp] theorem emit_unitId (o : Output) (s : State) : (emit o s).unitId = s.unitId := rfl
@[simp] theorem emit_timeout (o : Output) (s : State) : (emit o s).timeout = s.timeout := rfl
@[simp] theorem emit_rxbuf (o : Output) (s : State) : (emit o s).rxbuf = s.rxbuf := rfl
@[simp] theorem emit_val (o : Output) (s : State) : (emit o s).val = s.val := rfl
@[simp] theorem emit_params (o : Output) (s : State) : (emit o s).params = s.params := rfl
@[simp] theorem emit_hasBeenReset (o : Output) (s : State) : (emit o s).hasBeenReset = s.hasBeenReset := rfl
@[simp] theorem emit_inputs (o : Output) (s : State) : (emit o s).inputs = s.inputs := rfl
@[simp] theorem emit_outputs (o : Output) (s : State) : (emit o s).outputs = s.outputs ++ [o] := rfl

@[simp] theorem reject_state (e : Err) (s : State) : (reject e s).state = s.state := rfl
@[simp] theorem reject_nextTid (e : Err) (s : State) : (reject e s).nextTid = s.nextTid := rfl
@[simp] theorem reject_unitId (e : Err) (s : State) : (reject e s).unitId = s.unitId := rfl
@[simp] theorem reject_timeout (e : Err) (s : State) : (reject e s).timeout = s.timeout := rfl
@[simp] theorem reject_rxbuf (e : Err) (s : State) : (reject e s).rxbuf = s.rxbuf := rfl
@[simp] theorem reject_val (e : Err) (s : State) : (reject e s).val = s.val := rfl
@[simp] theorem reject_params (e : Err) (s : State) : (reject e s).params = s.params := rfl
@[simp] theorem reject_hasBeenReset (e : Err) (s : State) : (reject e s).hasBeenReset = s.hasBeenReset := rfl
@[simp] theorem reject_inputs (e : Err) (s : State) : (reject e s).inputs = s.inputs := rfl
@[simp] theorem reject_outputs (e : Err) (s : State) : (reject e s).outputs = s.outputs ++ [.reject e] := rfl

@[simp] theorem giveBack_state (r : Returned) (s : State) : (giveBack r s).state = s.state := rfl
@[simp] theorem giveBack_nextTid (r : Returned) (s : State) : (giveBack r s).nextTid = s.nextTid := rfl
@[simp] theorem giveBack_unitId (r : Returned) (s : State) : (giveBack r s).unitId = s.unitId := rfl
@[simp] theorem giveBack_timeout (r : Returned) (s : State) : (giveBack r s).timeout = s.timeout := rfl
@[simp] theorem giveBack_rxbuf (r : Returned) (s : State) : (giveBack r s).rxbuf = s.rxbuf := rfl
@[simp] theorem giveBack_val (r : Returned) (s : State) : (giveBack r s).val = s.val := rfl
@[simp] theorem giveBack_params (r : Returned) (s : State) : (giveBack r s).params = s.params := rfl
@[simp] theorem giveBack_hasBeenReset (r : Returned) (s : State) : (giveBack r s).hasBeenReset = s.hasBeenReset := rfl
@[simp] theorem giveBack_inputs (r : Returned) (s : State) : (giveBack r s).inputs = s.inputs := rfl
@[simp] theorem giveBack_outputs (r : Returned) (s : State) : (giveBack r s).outputs = s.outputs ++ [.returned r] := rfl

@[simp] theorem resolve_state (r : Result) (q : Phase) (s : State) : (resolve r q s).state = q := rfl
@[simp] theorem resolve_nextTid (r : Result) (q : Phase) (s : State) : (resolve r q s).nextTid = s.nextTid := rfl
@[simp] theorem resolve_unitId (r : Result) (q : Phase) (s : State) : (resolve r q s).unitId = s.unitId := rfl
@[simp] theorem resolve_timeout (r : Result) (q : Phase) (s : State) : (resolve r q s).timeout = s.timeout := rfl
@[simp] theorem resolve_rxbuf (r : Result) (q : Phase) (s : State) : (resolve r q s).rxbuf = s.rxbuf := rfl
@[simp] theorem resolve_val (r : Result) (q : Phase) (s : State) : (resolve r q s).val = s.val := rfl
@[simp] theorem resolve_params (r : Result) (q : Phase) (s : State) : (resolve r q s).params = s.params := rfl
@[simp] theorem resolve_hasBeenReset (r : Result) (q : Phase) (s : State) : (resolve r q s).hasBeenReset = s.hasBeenReset := rfl
@[simp] theorem resolve_inputs (r : Result) (q : Phase) (s : State) : (resolve r q s).inputs = s.inputs := rfl
@[simp] theorem resolve_outputs (r : Result) (q : Phase) (s : State) : (resolve r q s).outputs = s.outputs ++ [.resolve r] := rfl

@[simp] theorem discardRx_state (s : State) : (discardRx s).state = s.state := rfl
@[simp] theorem discardRx_nextTid (s : State) : (discardRx s).nextTid = s.nextTid := rfl
@[simp] theorem discardRx_unitId (s : State) : (discardRx s).unitId = s.unitId := rfl
@[simp] theorem discardRx_timeout (s : State) : (discardRx s).timeout = s.timeout := rfl
@[simp] theorem discardRx_rxbuf (s : State) : (discardRx s).rxbuf = [] := rfl
@[simp] theorem discardRx_val (s : State) : (discardRx s).val = s.val := rfl
@[simp] theorem discardRx_params (s : State) : (discardRx s).params = s.params := rfl
@[simp] theorem discardRx_hasBeenReset (s : State) : (discardRx s).hasBeenReset = s.hasBeenReset := rfl
@[simp] theorem discardRx_inputs (s : State) : (discardRx s).inputs = s.inputs := rfl
@[simp] theorem discardRx_outputs (s : State) : (discardRx s).outputs = s.outputs := rfl

@[simp] theorem accept_state (q : Request) (s : State) : (accept q s).state = .awaitingResponse ⟨q.kind, s.nextTid, q.addr, q.count⟩ s.timeout := rfl
@[simp] theorem accept_nextTid (q : Request) (s : State) : (accept q s).nextTid = s.nextTid + 1 := rfl
@[simp] theorem accept_unitId (q : Request) (s : State) : (accept q s).unitId = s.unitId := rfl
@[simp] theorem accept_timeout (q : Request) (s : State) : (accept q s).timeout = s.timeout := rfl
@[simp] theorem accept_rxbuf (q : Request) (s : State) : (accept q s).rxbuf = s.rxbuf := rfl
@[simp] theorem accept_val (q : Request) (s : State) : (accept q s).val = s.val := rfl
@[simp] theorem accept_params (q : Request) (s : State) : (accept q s).params = s.params := rfl
@[simp] theorem accept_hasBeenReset (q : Request) (s : State) : (accept q s).hasBeenReset = s.hasBeenReset := rfl
@[simp] theorem accept_inputs (q : Request) (s : State) : (accept q s).inputs = s.inputs := rfl
@[simp] theorem accept_outputs (q : Request) (s : State) : (accept q s).outputs = s.outputs ++ [.tx q.frame] := rfl

theorem storeResult_eq (r : Result) (s : State) : storeResult r s = { s with val := valAfter r s.val } := by
  cases r <;> rfl

@[simp] theorem storeResult_state (r : Result) (s : State) : (storeResult r s).state = s.state := by
  cases r <;> rfl
@[simp] theorem storeResult_nextTid (r : Result) (s : State) : (storeResult r s).nextTid = s.nextTid := by
  cases r <;> rfl
@[simp] theorem storeResult_unitId (r : Result) (s : State) : (storeResult r s).unitId = s.unitId := by
  cases r <;> rfl
@[simp] theorem storeResult_timeout (r : Result) (s : State) : (storeResult r s).timeout = s.timeout := by
  cases r <;> rfl
@[simp] theorem storeResult_rxbuf (r : Result) (s : State) : (storeResult r s).rxbuf = s.rxbuf := by
  cases r <;> rfl
@[simp] theorem storeResult_val (r : Result) (s : State) : (storeResult r s).val = valAfter r s.val := by
  cases r <;> rfl
@[simp] theorem storeResult_params (r : Result) (s : State) : (storeResult r s).params = s.params := by
  cases r <;> rfl
@[simp] theorem storeResult_hasBeenReset (r : Result) (s : State) : (storeResult r s).hasBeenReset = s.hasBeenReset := by
  cases r <;> rfl
@[simp] theorem storeResult_inputs (r : Result) (s : State) : (storeResult r s).inputs = s.inputs := by
  cases r <;> rfl
@[simp] theorem storeResult_outputs (r : Result) (s : State) : (storeResult r s).outputs = s.outputs := by
  cases r <;> rfl

/-- The completion of a request, every field at once (R166, R210, R211). -/
theorem complete_eq (p : Pend) (size : Nat) (s : State) :
    complete p size s =
      { s with
        state := .idle
        rxbuf := s.rxbuf.drop size
        val := valAfter (answer p (s.rxbuf.take size)) s.val
        outputs := s.outputs ++ [.resolve (answer p (s.rxbuf.take size))] } := by
  simp [complete, storeResult_eq, resolve, emit]

/-- A table word becomes the next event, and no register changes. -/
@[simp] theorem withFetchWord_eq (s : State) (nbits w : Nat) :
    s.withFetchWord nbits w =
      { s with inputs := tableInput nbits w :: s.inputs, hasBeenReset := true } := rfl

/-- R24.1: `pend` is valid exactly in `AwaitingResponse`. -/
theorem pend_eq_some (s : State) (p : Pend) : s.pend = some p ↔ ∃ t, s.state = .awaitingResponse p t := by
  unfold State.pend; cases s.state <;> simp

/-- R24.2: the timer is armed exactly in `AwaitingResponse`. -/
theorem timerRem_eq_some (s : State) (t : Ticks) :
    s.timerRem = some t ↔ ∃ p, s.state = .awaitingResponse p t := by
  unfold State.timerRem; cases s.state <;> simp

end Sys2Proof.Machine
end

