-- ==== Sys2Proof/Laws/Ops.lean ====
section
/-! SUPPORT. For each shared operation, what it can do, said once. -/

namespace Sys2Proof.Machine

@[simp] theorem andThen_next_left (s : State) (k : State → Answer) : andThen (.next s) k = k s := rfl

@[simp] theorem andThen_fault_left (f : Fault) (k : State → Answer) : andThen (.fault f) k = .fault f :=
  rfl

@[simp] theorem andThen_refused_left (r : Refusal) (k : State → Answer) :
    andThen (.refused r) k = .refused r := rfl

theorem andThen_eq_next (a : Answer) (k : State → Answer) (t : State) :
    andThen a k = .next t ↔ ∃ s, a = .next s ∧ k s = .next t := by
  cases a <;> simp

theorem andThen_assoc (a : Answer) (k l : State → Answer) :
    andThen (andThen a k) l = andThen a fun s => andThen (k s) l := by
  cases a <;> rfl

/-- R156: a complete frame of `size` bytes stands at the head of `rxbuf`. -/
theorem frameAvailable_eq_some (xs : List Byte) (size : Nat) :
    frameAvailable xs = some size ↔
      6 ≤ xs.length ∧ size = 6 + (be16 (byteAt xs 4) (byteAt xs 5)).toNat ∧ size ≤ xs.length := by
  simp only [frameAvailable, Config.mbapPrefixLen]
  split_ifs <;> simp <;> omega

/-- R156: no complete frame yet. -/
theorem frameAvailable_eq_none (xs : List Byte) :
    frameAvailable xs = none ↔
      xs.length < 6 ∨ xs.length < 6 + (be16 (byteAt xs 4) (byteAt xs 5)).toNat := by
  simp only [frameAvailable, Config.mbapPrefixLen]
  split_ifs <;> simp <;> omega

/-- Further bytes do not change a frame that is already complete. -/
theorem frameAvailable_append (xs ys : List Byte) (size : Nat) (h : frameAvailable xs = some size) :
    frameAvailable (xs ++ ys) = some size := by
  rw [frameAvailable_eq_some] at h ⊢
  rw [byteAt_append_left _ _ _ (by omega), byteAt_append_left _ _ _ (by omega), List.length_append]
  omega

/-- R166: `try_complete` completes the outstanding request or does nothing. -/
theorem tryComplete_cases (s : State) :
    (∃ p t size, s.state = .awaitingResponse p t ∧ frameAvailable s.rxbuf = some size ∧
      tryComplete s = complete p size s) ∨
    (tryComplete s = s ∧ ∀ p t, s.state = .awaitingResponse p t → frameAvailable s.rxbuf = none) := by
  cases h : s.state with
  | idle => exact .inr ⟨by simp [tryComplete, h], by simp⟩
  | closed => exact .inr ⟨by simp [tryComplete, h], by simp⟩
  | awaitingResponse p t =>
    cases hf : frameAvailable s.rxbuf with
    | none => exact .inr ⟨by simp [tryComplete, h, hf], by simp⟩
    | some size => exact .inl ⟨p, t, size, rfl, rfl, by simp [tryComplete, h, hf]⟩

/-- R160, R209, R214: what a submission can do. -/
theorem submit_cases (r : Except Err Request) (s : State) :
    (s.state = .closed ∧ submit r s = reject .closed s) ∨
    ((∃ p t, s.state = .awaitingResponse p t) ∧ submit r s = reject .busy s) ∨
    (∃ e, s.state = .idle ∧ r = .error e ∧ submit r s = reject e s) ∨
    (∃ q, s.state = .idle ∧ r = .ok q ∧ submit r s = tryComplete (accept q s)) := by
  cases h : s.state with
  | closed => exact .inl ⟨rfl, by simp [submit, h]⟩
  | awaitingResponse p t => exact .inr (.inl ⟨⟨p, t, rfl⟩, by simp [submit, h]⟩)
  | idle =>
    cases r with
    | error e => exact .inr (.inr (.inl ⟨e, rfl, rfl, by simp [submit, h]⟩))
    | ok q => exact .inr (.inr (.inr ⟨q, rfl, rfl, by simp [submit, h]⟩))

/-- R160: the request of a read whose operands are u16. -/
@[simp] theorem readRequest_toNat (tid : U16) (unitId : Byte) (addr count : U16) :
    readRequest tid unitId addr.toNat count.toNat =
      (encodeReadRequest tid unitId addr count).map (Request.mk .read addr count) := by
  simp [readRequest]

/-- R161: the request of a write whose operands are u16. -/
@[simp] theorem writeRequest_toNat (tid : U16) (unitId : Byte) (addr : U16) (values : List U16) :
    writeRequest tid unitId addr.toNat (values.map BitVec.toNat) =
      (encodeWriteRequest tid unitId addr values).map
        (Request.mk .write addr (BitVec.ofNat 16 values.length)) := by
  simp [writeRequest]

/-- R160, R124: what the request of a read can be. -/
theorem readRequest_cases (tid : U16) (unitId : Byte) (addr count : Nat) :
    (∃ a c f, addr = a.toNat ∧ count = c.toNat ∧ encodeReadRequest tid unitId a c = .ok f ∧
      readRequest tid unitId addr count = .ok ⟨.read, a, c, f⟩) ∨
    ((65536 ≤ addr ∨ count = 0 ∨ 125 < count) ∧
      readRequest tid unitId addr count = .error .invalidParameters) := by
  cases ha : narrow 16 addr with
  | none => exact .inr ⟨.inl (narrow_eq_none.mp ha), by simp [readRequest, ha]⟩
  | some a =>
    cases hc : narrow 16 count with
    | none =>
      have := narrow_eq_none.mp hc
      exact .inr ⟨.inr (.inr (by omega)), by simp [readRequest, ha, hc]⟩
    | some c =>
      rw [narrow_eq_some.mp ha, narrow_eq_some.mp hc, readRequest_toNat]
      unfold encodeReadRequest
      split
      · rename_i h
        refine .inr ⟨.inr ?_, rfl⟩
        rcases h with rfl | h
        · exact .inl rfl
        · exact .inr h
      · rename_i h
        exact .inl ⟨a, c, _, rfl, rfl, if_neg h, rfl⟩

/-- R161, R124: what the request of a write can be. -/
theorem writeRequest_cases (tid : U16) (unitId : Byte) (addr : Nat) (values : List Nat) :
    (∃ a vs f, addr = a.toNat ∧ values = vs.map BitVec.toNat ∧
      encodeWriteRequest tid unitId a vs = .ok f ∧
      writeRequest tid unitId addr values = .ok ⟨.write, a, BitVec.ofNat 16 vs.length, f⟩) ∨
    ((65536 ≤ addr ∨ (∃ v ∈ values, 65536 ≤ v) ∨ values.length = 0 ∨ 123 < values.length) ∧
      writeRequest tid unitId addr values = .error .invalidParameters) := by
  cases ha : narrow 16 addr with
  | none => exact .inr ⟨.inl (narrow_eq_none.mp ha), by simp [writeRequest, ha]⟩
  | some a =>
    cases hv : narrowAll values with
    | none => exact .inr ⟨.inr (.inl (narrowAll_eq_none.mp hv)), by simp [writeRequest, ha, hv]⟩
    | some vs =>
      rw [narrow_eq_some.mp ha, narrowAll_eq_some.mp hv, writeRequest_toNat]
      unfold encodeWriteRequest
      split
      · rename_i h
        exact .inr ⟨.inr (.inr (by simpa using h)), rfl⟩
      · rename_i h
        exact .inl ⟨a, vs, _, rfl, rfl, if_neg h, rfl⟩

/-- R124: whatever `InvalidParameters` operands a read has, its request is that error. -/
theorem readRequest_invalid (tid : U16) (unitId : Byte) (addr count : Nat)
    (h : 65536 ≤ addr ∨ count = 0 ∨ 125 < count) :
    readRequest tid unitId addr count = .error .invalidParameters := by
  rcases readRequest_cases tid unitId addr count with ⟨a, c, f, rfl, rfl, he, -⟩ | ⟨-, e⟩
  · exfalso
    have := a.isLt
    have hne : ¬(c = 0 ∨ Config.maxReadRegs < c.toNat) := fun hc => by
      rw [encodeReadRequest, if_pos hc] at he
      cases he
    have h0 : c.toNat ≠ 0 := fun h0 => hne (.inl (BitVec.eq_of_toNat_eq (by simpa using h0)))
    have h1 : ¬Config.maxReadRegs < c.toNat := fun h1 => hne (.inr h1)
    simp only [Config.maxReadRegs] at h1
    omega
  · exact e

/-- R124: whatever `InvalidParameters` operands a write has, its request is that error. -/
theorem writeRequest_invalid (tid : U16) (unitId : Byte) (addr : Nat) (values : List Nat)
    (h : 65536 ≤ addr ∨ (∃ v ∈ values, 65536 ≤ v) ∨ values.length = 0 ∨ 123 < values.length) :
    writeRequest tid unitId addr values = .error .invalidParameters := by
  rcases writeRequest_cases tid unitId addr values with ⟨a, vs, f, rfl, rfl, he, -⟩ | ⟨-, e⟩
  · exfalso
    have hne : ¬(vs.length = 0 ∨ Config.maxWriteRegs < vs.length) := fun hc => by
      rw [encodeWriteRequest, if_pos hc] at he
      cases he
    rcases h with h | ⟨v, hv, h⟩ | h
    · have := a.isLt
      omega
    · obtain ⟨w, -, rfl⟩ := List.mem_map.mp hv
      have := w.isLt
      omega
    · simp only [List.length_map] at h
      exact hne h
  · exact e

/-- R174, R124: what `CfgUnit` can do. -/
theorem execCfgUnit_cases (u : Nat) (s : State) :
    (∃ b : Byte, u = b.toNat ∧ execCfgUnit u s = .next { s with unitId := b }) ∨
    (256 ≤ u ∧ execCfgUnit u s = .next (giveBack (.err .invalidParameters) s)) := by
  cases h : narrow 8 u with
  | none => exact .inr ⟨narrow_eq_none.mp h, by simp [execCfgUnit, h]⟩
  | some b => exact .inl ⟨b, narrow_eq_some.mp h, by simp [execCfgUnit, h]⟩

/-- R175, R201: what `CfgTimeout` can do. -/
theorem execCfgTimeout_cases (u : Nat) (s : State) :
    (∃ t : Ticks, u = t.toNat ∧ execCfgTimeout u s = .next { s with timeout := t }) ∨
    (2 ^ Config.timeoutW ≤ u ∧
      execCfgTimeout u s = .next (giveBack (.err .invalidParameters) s)) := by
  cases h : narrow Config.timeoutW u with
  | none => exact .inr ⟨narrow_eq_none.mp h, by simp [execCfgTimeout, h]⟩
  | some t => exact .inl ⟨t, narrow_eq_some.mp h, by simp [execCfgTimeout, h]⟩

/-- R110, R124: what `serialize` as a row can do: a value goes back, and nothing else happens. -/
theorem execSerialize_cases (values : List Nat) (s : State) :
    (∃ vs : List U16, values = vs.map BitVec.toNat ∧
      execSerialize values s = .next (giveBack (.bytes (serialize vs)) s)) ∨
    ((∃ v ∈ values, 65536 ≤ v) ∧
      execSerialize values s = .next (giveBack (.err .invalidParameters) s)) := by
  cases h : narrowAll values with
  | none => exact .inr ⟨narrowAll_eq_none.mp h, by simp [execSerialize, h]⟩
  | some vs => exact .inl ⟨vs, narrowAll_eq_some.mp h, by simp [execSerialize, h]⟩

/-- R252: room for one byte. -/
theorem hasRoom_iff (s : State) :
    hasRoom s = true ↔ ∀ c, s.params.rxCapacity = some c → s.rxbuf.length < c := by
  simp only [hasRoom]
  cases s.params.rxCapacity <;> simp

/-- R165: what one received byte can do when the block goes on. -/
theorem receiveByte_next (b : Byte) (s t : State) (h : receiveByte b s = .next t) :
    (s.state = .closed ∧ t = s) ∨
    (s.state ≠ .closed ∧ hasRoom s = true ∧ t = tryComplete { s with rxbuf := s.rxbuf ++ [b] }) := by
  unfold receiveByte appendByte at h
  cases hs : s.state with
  | closed => rw [hs] at h; simp at h; exact .inl ⟨rfl, h.symm⟩
  | idle =>
    rw [hs] at h
    by_cases hr : hasRoom s = true <;> simp [hr] at h
    exact .inr ⟨by simp, hr, h.symm⟩
  | awaitingResponse p r =>
    rw [hs] at h
    by_cases hr : hasRoom s = true <;> simp [hr] at h
    exact .inr ⟨by simp, hr, h.symm⟩

/-- R165: one received byte when there is room. -/
theorem receiveByte_of_room (b : Byte) (s : State) (hs : s.state ≠ .closed) (hr : hasRoom s = true) :
    receiveByte b s = .next (tryComplete { s with rxbuf := s.rxbuf ++ [b] }) := by
  cases h : s.state with
  | closed => exact absurd h hs
  | idle => simp [receiveByte, appendByte, h, hr]
  | awaitingResponse p r => simp [receiveByte, appendByte, h, hr]

/-- R252: one received byte when there is none. -/
theorem receiveByte_of_full (b : Byte) (s : State) (hs : s.state ≠ .closed) (hr : hasRoom s = false) :
    receiveByte b s = .refused .rxOverflow := by
  cases h : s.state with
  | closed => exact absurd h hs
  | idle => simp [receiveByte, appendByte, h, hr]
  | awaitingResponse p r => simp [receiveByte, appendByte, h, hr]

@[simp] theorem receive_nil (s : State) : receive [] s = .next s := rfl

@[simp] theorem receive_cons (b : Byte) (bs : List Byte) (s : State) :
    receive (b :: bs) s = andThen (receiveByte b s) (receive bs) := rfl

/-- R165 (b): receiving bytes is receiving the first of them and then the rest. -/
theorem receive_append (xs ys : List Byte) (s : State) :
    receive (xs ++ ys) s = andThen (receive xs s) (receive ys) := by
  induction xs generalizing s with
  | nil => rfl
  | cons x xs ih =>
    simp only [List.cons_append, receive_cons, andThen_assoc]
    congr 1
    funext u
    exact ih u

/-- What every received byte keeps, reception keeps. -/
theorem receive_keeps {P : State → Prop}
    (step : ∀ b s t, P s → receiveByte b s = .next t → P t) :
    ∀ bs s t, P s → receive bs s = .next t → P t := by
  intro bs
  induction bs with
  | nil => intro s t hs h; simp at h; exact h ▸ hs
  | cons b bs ih =>
    intro s t hs h
    obtain ⟨u, hu, ht⟩ := (andThen_eq_next _ _ _).mp h
    exact ih u t (step b s u hs hu) ht

/-- Fetching: what taking the next event gives (R150, R245). -/
theorem fetch_run (s t : State) (i : Instr) (h : fetch s = .run i t) :
    ∃ x rest, s.inputs = x :: rest ∧ decode x = .ok i ∧ t = { s with inputs := rest } ∧
      (s.hasBeenReset = true ∨ i = .reset ∨ isEvent i = false) := by
  unfold fetch at h
  split at h
  · simp at h
  · rename_i x rest hx
    split at h
    · simp at h
    · rename_i j hj
      split at h
      · simp only [Fetched.run.injEq] at h
        obtain ⟨rfl, rfl⟩ := h
        exact ⟨x, rest, hx, hj, rfl, by assumption⟩
      · simp at h

/-- Fetching no instruction changes nothing but what was supplied (R150, R217). -/
theorem fetch_nothing (s t : State) (h : fetch s = .nothing t) :
    (s.inputs = [] ∧ t = s) ∨
    ∃ x rest e, s.inputs = x :: rest ∧ decode x = .error e ∧ t = { s with inputs := rest } := by
  unfold fetch at h
  split at h
  · rename_i hx
    cases h
    exact .inl ⟨hx, rfl⟩
  · rename_i x rest hx
    split at h
    · rename_i e he
      cases h
      exact .inr ⟨x, rest, e, hx, he, rfl⟩
    · split at h <;> cases h

/-- The step that follows the placing of a table word runs that word's instruction. -/
theorem step_withFetchWord (s : State) (nbits w : Nat) (i : Instr)
    (h : decodeTableWord nbits w = some i) :
    step (s.withFetchWord nbits w) = exec i { s with hasBeenReset := true } := by
  unfold decodeTableWord at h
  cases hd : decode (tableInput nbits w) with
  | error e => rw [hd] at h; cases h
  | ok j =>
    rw [hd] at h
    cases h
    simp [step, fetch, hd]

end Sys2Proof.Machine
end

