-- ==== Sys2Proof/Laws/PerInstr.lean ====
section
/-! SUPPORT. Facts about each instruction as syntax. -/

namespace Sys2Proof.Laws.EncodedSize

open Sys2Proof.Machine

/-- The least size in bytes of a row's encoding: a frame by R72 to R76, a script line by R100. -/
def leastSize : Instr → Nat
  | .rdReq _ _ _ _ => 12
  | .wrReq _ _ _ _ => 13
  | .rdRsp _ _ _ => 9
  | .rdExc _ _ _ => 9
  | .wrRsp _ _ _ _ => 12
  | .wrExc _ _ _ => 9
  | .submitRead _ _ => 2
  | .submitWrite _ _ => 2
  | .rx _ => 2
  | .tick => 4
  | .transportError => 4
  | .close => 5
  | .cfgUnit _ => 4
  | .cfgTimeout _ => 4
  | .reset => 5
  | .serialize _ => 9
  | .deserialize _ _ _ => 11

/-- An instruction's encoding has at least the size of its row. -/
def Statement (i : Instr) : Prop := leastSize i ≤ (encode i).bytes.length

theorem rdReq (t : U16) (u : Byte) (a c : U16) : Statement (.rdReq t u a c) := by
  simp [Statement, leastSize, encode, rdReqFrame]
theorem wrReq (t : U16) (u : Byte) (a : U16) (vs : List U16) : Statement (.wrReq t u a vs) := by
  simp [Statement, leastSize, encode, wrReqFrame]; omega
theorem rdRsp (h : Mbap) (b : Byte) (r : List Byte) : Statement (.rdRsp h b r) := by
  simp [Statement, leastSize, encode, rdRspFrame, mbapBytes]; omega
theorem rdExc (h : Mbap) (b : Byte) (r : List Byte) : Statement (.rdExc h b r) := by
  simp [Statement, leastSize, encode, rdExcFrame, mbapBytes]; omega
theorem wrRsp (h : Mbap) (a c : U16) (r : List Byte) : Statement (.wrRsp h a c r) := by
  simp [Statement, leastSize, encode, wrRspFrame, mbapBytes]; omega
theorem wrExc (h : Mbap) (b : Byte) (r : List Byte) : Statement (.wrExc h b r) := by
  simp [Statement, leastSize, encode, wrExcFrame, mbapBytes]; omega
theorem submitRead (a c : Nat) : Statement (.submitRead a c) := by
  simp [Statement, leastSize, encode, scriptInput, kwRead, ascii]
theorem submitWrite (a : Nat) (vs : List Nat) : Statement (.submitWrite a vs) := by
  simp [Statement, leastSize, encode, scriptInput, kwWrite, ascii]
theorem rx (bs : List Byte) : Statement (.rx bs) := by
  simp [Statement, leastSize, encode, scriptInput, kwRx, ascii]
theorem tick : Statement .tick := by unfold Statement; decide
theorem transportError : Statement .transportError := by unfold Statement; decide
theorem close : Statement .close := by unfold Statement; decide
theorem cfgUnit (u : Nat) : Statement (.cfgUnit u) := by
  simp [Statement, leastSize, encode, scriptInput, kwCfgUnit, ascii]
theorem cfgTimeout (t : Nat) : Statement (.cfgTimeout t) := by
  simp [Statement, leastSize, encode, scriptInput, kwCfgTimeout, ascii]
theorem reset : Statement .reset := by unfold Statement; decide
theorem serialize (vs : List Nat) : Statement (.serialize vs) := by
  simp [Statement, leastSize, encode, scriptInput, kwSerialize, ascii]
theorem deserialize (bs : List Byte) (o n : Nat) : Statement (.deserialize bs o n) := by
  simp [Statement, leastSize, encode, scriptInput, kwDeserialize, ascii]

end Sys2Proof.Laws.EncodedSize
end

