-- ==== Sys2Proof/Tests/Slice0.lean ====
section
/-! SUPPORT. Tests: the decoding of words written out from the spec; one-step behaviour with the results
that 95_test_vectors.md gives; the smoke test of WellFormed; and, for each statement with hypotheses, a
witness that meets them (theorems `witness_…`). -/

namespace Sys2Proof.Tests

open Sys2Proof Sys2Proof.Machine

set_option maxRecDepth 8000

/-! ### Small states -/

/-- A script line. -/
def line (t : String) : Input := ⟨.script, ascii t.toList⟩

/-- "S0" of 95_test_vectors.md 2.4: the reset state with `TIMEOUT = 5`. -/
def s0 : State := { State.reset with timeout := 5 }

/-- The latch of "S1". -/
def p1 : Pend := ⟨.read, 1, 0, 2⟩

/-- The latch of vector T2. -/
def pw : Pend := ⟨.write, 1, 0x0010, 1⟩

/-- "S1": S0 after `RD 0x0000, 2`, without the outputs. -/
def s1 : State := { s0 with state := .awaitingResponse p1 5, nextTid := 2 }

/-- S0 after `WR 0x0010, [0x00FF]`, without the outputs. -/
def s1w : State := { s0 with state := .awaitingResponse pw 5, nextTid := 2 }

def sClosed : State := { s0 with state := .closed }

/-- The state and the new outputs of an answer. -/
def seen (a : Answer) : Option (Phase × List Byte × List Output) :=
  match a with
  | .next s => some (s.state, s.rxbuf, s.outputs)
  | .fault _ => none
  | .refused _ => none

/-- One field of a next state. -/
def field {α : Type} (f : State → α) (a : Answer) : Option α :=
  match a with
  | .next s => some (f s)
  | .fault _ => none
  | .refused _ => none

/-- The source's read response S1. -/
def rspS1 : List Byte := [0x00, 0x01, 0x00, 0x00, 0x00, 0x07, 0x01, 0x03, 0x04, 0x00, 0x0A, 0x00, 0x14]

/-! ### WellFormed: an ill-formed term for each check -/

theorem test_wf_refuses_128_values :
    (Instr.wrReq 1 1 0 (List.replicate 128 0)).wellFormed = false := by decide

/-! ### Decoding, one word for each row, written from R72 to R76, R100 and the table -/

theorem test_decode_rdReq :
    decode ⟨.request, [0x12, 0x34, 0, 0, 0, 6, 0x11, 0x03, 0x00, 0x6B, 0x00, 0x03]⟩ =
      .ok (.rdReq 0x1234 0x11 0x006B 3) := by decide
theorem test_decode_wrReq :
    decode ⟨.request, [0xAB, 0xCD, 0, 0, 0, 0x0D, 0xFF, 0x10, 0xFF, 0xFF, 0, 3, 6, 0xFF, 0xFF, 0, 0,
      0x80, 0x01]⟩ = .ok (.wrReq 0xABCD 0xFF 0xFFFF [0xFFFF, 0, 0x8001]) := by decide
theorem test_decode_rdRsp :
    decode ⟨.response, rspS1⟩ = .ok (.rdRsp ⟨1, 0, 7, 1⟩ 4 [0, 0x0A, 0, 0x14]) := by decide
theorem test_decode_rdExc :
    decode ⟨.response, [0, 1, 0, 0, 0, 3, 1, 0x83, 2]⟩ = .ok (.rdExc ⟨1, 0, 3, 1⟩ 2 []) := by decide
theorem test_decode_wrRsp :
    decode ⟨.response, [0, 1, 0, 0, 0, 6, 1, 0x10, 0x01, 0x10, 0, 1, 0xAA]⟩ =
      .ok (.wrRsp ⟨1, 0, 6, 1⟩ 0x0110 1 [0xAA]) := by decide
theorem test_decode_wrExc :
    decode ⟨.response, [0, 1, 0, 0, 0, 3, 1, 0x90, 3, 7]⟩ = .ok (.wrExc ⟨1, 0, 3, 1⟩ 3 [7]) := by decide
theorem test_decode_other_function_code_is_rx :
    decode ⟨.response, [0, 1, 0, 0, 0, 3, 1, 0x81, 2]⟩ =
      .ok (.rx [0, 1, 0, 0, 0, 3, 1, 0x81, 2]) := by decide
theorem test_decode_submitRead : decode (line "RD 0x006B, 3") = .ok (.submitRead 0x6B 3) := by decide
theorem test_decode_submitWrite :
    decode (line "WR 0x0020, [0x1234, 0xABCD]") = .ok (.submitWrite 0x20 [0x1234, 0xABCD]) := by decide
theorem test_decode_submitWrite_empty :
    decode (line "WR 0x0000, []") = .ok (.submitWrite 0 []) := by decide
theorem test_decode_rx : decode (line "RX 0A 00 14") = .ok (.rx [0x0A, 0, 0x14]) := by decide
theorem test_decode_tick : decode (line "TICK") = .ok .tick := by decide
theorem test_decode_transportError : decode (line "TERR") = .ok .transportError := by decide
theorem test_decode_close : decode (line "CLOSE") = .ok .close := by decide
theorem test_decode_cfgUnit : decode (line "CFGU 0x11") = .ok (.cfgUnit 0x11) := by decide
theorem test_decode_cfgTimeout : decode (line "CFGT 5") = .ok (.cfgTimeout 5) := by decide
theorem test_decode_reset : decode (line "RESET") = .ok .reset := by decide
theorem test_decode_serialize :
    decode (line "serialize([0x000A, 20])") = .ok (.serialize [10, 20]) := by decide
theorem test_decode_deserialize :
    decode (line "deserialize(00 0A FF, 1, 1)") = .ok (.deserialize [0, 0x0A, 0xFF] 1 1) := by decide
theorem test_decode_never_truncates : decode (line "RD 65536, 1") = .ok (.submitRead 65536 1) := by decide
theorem test_decode_never_truncates_values :
    decode (line "WR 0, [0x10000]") = .ok (.submitWrite 0 [0x10000]) := by decide
/-- Log 11: the model also reads `0X` and digits of either case. -/
theorem test_decode_hexadecimal_case : decode (line "CFGT 0XaF") = .ok (.cfgTimeout 0xAF) := by decide
theorem test_decode_refuses_dangling_comma : decode (line "WR 0, [, 5]") = .error .operands := by decide

/-- The table's words, by its own numbering (byte 0 most significant): the four rows it gives fixed bits
within one word, and `RD_REQ`'s match. -/
theorem test_table_words :
    decodeTableWord 8 0x03 = some (.rdRsp ⟨0, 0, 0, 0⟩ 0 []) ∧
    decodeTableWord 8 0x83 = some (.rdExc ⟨0, 0, 0, 0⟩ 0 []) ∧
    decodeTableWord 8 0x10 = some (.wrRsp ⟨0, 0, 0, 0⟩ 0 0 []) ∧
    decodeTableWord 8 0x90 = some (.wrExc ⟨0, 0, 0, 0⟩ 0 []) ∧
    decodeTableWord 64 0x0000000000060003 = some (.rdReq 0 0 0 0) := by decide
theorem test_table_word_is_the_first_step :
    step (State.reset.withFetchWord 8 0x83) =
      .next { State.reset with rxbuf := [0, 0, 0, 0, 0, 0, 0, 0x83, 0] } := rfl

/-! ### Codec vectors of 95_test_vectors.md -/

theorem test_E3 : encodeReadRequest 0xFFFF 0xFF 0xFFFF 125 =
    .ok [0xFF, 0xFF, 0, 0, 0, 6, 0xFF, 3, 0xFF, 0xFF, 0, 0x7D] := by decide
theorem test_E7 : encodeReadRequest 1 1 0 126 = .error .invalidParameters := by decide
theorem test_W3 : encodeWriteRequest 2 1 0 [1, 2] =
    .ok [0, 2, 0, 0, 0, 0x0B, 1, 0x10, 0, 0, 0, 2, 4, 0, 1, 0, 2] := by decide
theorem test_W6 : encodeWriteRequest 1 1 0 (List.replicate 124 0) = .error .invalidParameters := by decide
theorem test_D1 : decodeReadResponse rspS1 2 = .ok [10, 20] := by decide
theorem test_D4 : decodeReadResponse [0, 1, 0, 0, 0, 3, 1, 0x83, 2] 125 =
    .error (.deviceException 2) := by decide
theorem test_D12 : decodeReadResponse [0, 1, 0, 0, 0, 3, 1, 0x90, 2] 2 = .error .malformedFrame := by decide
theorem test_D16 : decodeReadResponse rspS1 1 = .error .protocolError := by decide
theorem test_D17 : decodeReadResponse rspS1 3 = .error .malformedFrame := by decide
theorem test_V4 : decodeWriteResponse [0, 1, 0, 0, 0, 6, 1, 0x10, 1, 0x10, 0, 1] 0x10 1 =
    .error .protocolError := by decide
theorem test_V10 : decodeWriteResponse [0, 1, 0, 0, 0, 3, 1, 0x83, 3] 0x10 1 =
    .error .malformedFrame := by decide
theorem test_V15 : decodeWriteResponse [0x99, 0x99, 0x99, 0x99, 0x99, 0x99, 0x99, 0x10, 0xFF, 0xFF, 0,
    0x7B] 0xFFFF 123 = .ok () := by decide
theorem test_excRsp : excRsp 1 1 Config.fcRead 2 = [0, 1, 0, 0, 0, 3, 1, 0x83, 2] := by decide

/-! ### One step for each row, with the results of 95_test_vectors.md 2.1 to 2.4 -/

theorem test_rdReq : seen (exec (.rdReq 0x00FF 0 0xFF00 1) sClosed) =
    some (.closed, [], [.returned (.bytes [0, 0xFF, 0, 0, 0, 6, 0, 3, 0xFF, 0, 0, 1])]) := by decide
theorem test_wrReq : seen (exec (.wrReq 1 1 0 []) s0) =
    some (.idle, [], [.returned (.err .invalidParameters)]) := by decide
theorem test_rdRsp_T6 : seen (exec (.rdRsp ⟨1, 0, 7, 1⟩ 4 [0, 0x0A, 0, 0x14]) s1) =
    some (.idle, [], [.resolve (.okValues [10, 20])]) := by decide
theorem test_rdRsp_stores_val : field State.val (exec (.rdRsp ⟨1, 0, 7, 1⟩ 4 [0, 0x0A, 0, 0x14]) s1) =
    some [10, 20] := by decide
theorem test_rdExc_T8 : seen (exec (.rdExc ⟨1, 0, 3, 1⟩ 2 []) s1) =
    some (.idle, [], [.resolve (.err (.deviceException 2))]) := by decide
theorem test_wrRsp_P2 : seen (exec (.wrRsp ⟨1, 0, 6, 1⟩ 0x10 1 []) s1w) =
    some (.idle, [], [.resolve .okWritten]) := by decide
theorem test_wrRsp_to_a_read : seen (exec (.wrRsp ⟨1, 0, 6, 1⟩ 0x10 1 []) s1) =
    some (.idle, [], [.resolve (.err .malformedFrame)]) := by decide
theorem test_wrExc : seen (exec (.wrExc ⟨1, 0, 3, 1⟩ 2 []) s1w) =
    some (.idle, [], [.resolve (.err (.deviceException 2))]) := by decide
theorem test_submitRead_T1 : seen (exec (.submitRead 0 2) s0) =
    some (.awaitingResponse p1 5, [], [.tx [0, 1, 0, 0, 0, 6, 1, 3, 0, 0, 0, 2]]) := by decide
/-- R124, R201: an address above `0xFFFF`; while busy it is `Busy` (R214). -/
theorem test_submitRead_wide : exec (.submitRead 65536 1) s0 =
    .next { s0 with outputs := [.reject .invalidParameters] } := rfl
theorem test_submitRead_wide_busy : exec (.submitRead 65536 1) s1 =
    .next { s1 with outputs := [.reject .busy] } := rfl
/-- R124: one value above `0xFFFF`. -/
theorem test_submitWrite_wide : exec (.submitWrite 0 [1, 65536]) s0 =
    .next { s0 with outputs := [.reject .invalidParameters] } := rfl
theorem test_submitRead_T3 : seen (exec (.submitRead 5 1) s1) =
    some (.awaitingResponse p1 5, [], [.reject .busy]) := by decide
theorem test_submitWrite_T2 : seen (exec (.submitWrite 0x10 [0xFF]) s0) =
    some (.awaitingResponse pw 5, [], [.tx [0, 1, 0, 0, 0, 9, 1, 0x10, 0, 0x10, 0, 1, 2, 0, 0xFF]]) := by
  decide
/-- P6 line 5: the buffered frame resolves the write in its own step, the surplus stays. -/
theorem test_submitWrite_P6 :
    seen (exec (.submitWrite 5 [7, 8])
      { s0 with nextTid := 2, rxbuf := [0, 2, 0, 0, 0, 6, 1, 0x10, 0, 5, 0, 2, 0, 3] }) =
    some (.idle, [0, 3], [.tx [0, 2, 0, 0, 0, 0x0B, 1, 0x10, 0, 5, 0, 2, 4, 0, 7, 0, 8],
      .resolve .okWritten]) := by decide
/-- P7: the identifier wraps. -/
theorem test_tid_wraps : field State.nextTid (exec (.submitRead 0 1) { s0 with nextTid := 0xFFFF }) =
    some 0 := by decide
theorem test_rx_T12 : seen (exec (.rx (rspS1 ++ [0xDE, 0xAD])) s1) =
    some (.idle, [0xDE, 0xAD], [.resolve (.okValues [10, 20])]) := by decide
theorem test_rx_T7 : seen (exec (.rx (0 :: 2 :: rspS1.drop 2)) s1) =
    some (.idle, [], [.resolve (.err .protocolError)]) := by decide
theorem test_tick_T23 : seen (exec .tick { s1 with state := .awaitingResponse p1 0, rxbuf := [1] }) =
    some (.idle, [], [.resolve (.err .timeout)]) := by decide
theorem test_tick_T20 : seen (exec .tick { s1 with timeout := 1 }) =
    some (.awaitingResponse p1 4, [], []) := by decide
theorem test_transportError_T14 : seen (exec .transportError { s1 with rxbuf := [1] }) =
    some (.idle, [], [.resolve (.err .transportError)]) := by decide
theorem test_transportError_T18 : seen (exec .transportError { s0 with rxbuf := [1, 2, 3] }) =
    some (.idle, [], []) := by decide
theorem test_close_T15 : seen (exec .close { s1 with rxbuf := [1] }) =
    some (.closed, [], [.resolve (.err .closed)]) := by decide
theorem test_close_idle : seen (exec .close { s0 with rxbuf := [1] }) = some (.closed, [], []) := by decide
theorem test_cfgUnit_T21 : field State.unitId (exec (.cfgUnit 9) s1) = some 9 := by decide
/-- R124: "a unit id above `0xFF`". -/
theorem test_cfgUnit_wide : exec (.cfgUnit 256) s1 =
    .next { s1 with outputs := [.returned (.err .invalidParameters)] } := rfl
theorem test_cfgTimeout_wide : exec (.cfgTimeout (2 ^ 32)) s1 =
    .next { s1 with outputs := [.returned (.err .invalidParameters)] } := rfl
theorem test_cfgTimeout_T20 : field (fun s => (s.timeout, s.timerRem)) (exec (.cfgTimeout 1) s1) =
    some (1, some 5) := by decide
theorem test_reset_T22 : exec .reset { s1 with rxbuf := [1], unitId := 9 } = .next State.reset := rfl
theorem test_serialize_X4 : seen (exec (.serialize [0xFF00]) s0) =
    some (.idle, [], [.returned (.bytes [0xFF, 0])]) := by decide
theorem test_serialize_wide : exec (.serialize [65536]) s0 =
    .next { s0 with outputs := [.returned (.err .invalidParameters)] } := rfl
theorem test_deserialize : seen (exec (.deserialize rspS1 9 2) s0) =
    some (.idle, [], [.returned (.values [10, 20])]) := by decide
theorem test_deserialize_short : seen (exec (.deserialize [0] 0 1) s0) =
    some (.idle, [], [.returned (.err .malformedFrame)]) := by decide

/-! ### Witnesses: states and operands that meet the hypotheses of the statements -/

/-- A state at the limit of a finite capacity of 259 with room for one byte. -/
def sCap : State :=
  { s0 with params := { Params.default with rxCapacity := some 259 }, rxbuf := List.replicate 258 0 }

/-- The same with no room, an incomplete frame (length field `0xFFFF`) in it. -/
def sFull : State := { sCap with rxbuf := List.replicate 259 0xFF }

theorem roomFor_unbounded (s : State) (n : Nat) (h : s.params.rxCapacity = none) : RoomFor s n := by
  intro c hc
  rw [h] at hc
  cases hc

theorem witness_ResetAloneLeavesClosed :
    sClosed.state = .closed ∧ Instr.tick ≠ .reset ∧ exec .tick sClosed = .next sClosed :=
  ⟨rfl, by decide, rfl⟩
theorem witness_StepRunsTheDecodedInstruction :
    s0.hasBeenReset = true ∧ decode (line "TICK") = .ok .tick ∧
    ({ s0 with inputs := [line "TICK"] } : State).inputs = line "TICK" :: [] ∧
    decode (line "RESET") = .ok .reset ∧ decode (line "serialize([1])") = .ok (.serialize [1]) ∧
    isEvent (.serialize [1]) = false := by decide
theorem witness_StepWithoutAnInstruction :
    s0.inputs = [] ∧ decode (line "HALT") = .error .keyword ∧ decode (line "TICK") = .ok .tick ∧
    ({ s0 with hasBeenReset := false, inputs := [line "TICK"] } : State).hasBeenReset = false ∧
    Instr.tick ≠ .reset ∧ isEvent .tick = true := by decide
/-- R23: a codec call needs no `Reset`. -/
theorem test_codec_call_before_reset :
    step { s0 with hasBeenReset := false, inputs := [line "serialize([1])"] } =
      .next { s0 with hasBeenReset := false, outputs := [.returned (.bytes [0, 1])] } := rfl
/-- R150, R217: bytes that are no event. -/
theorem test_no_event : step { s1 with inputs := [line "HALT"] } = .next s1 := rfl
theorem witness_DecodedInstructionsAreWellFormed : decode (line "TICK") = .ok .tick := by decide
theorem witness_EveryInstructionDecodesFromItsEncoding :
    (Instr.wrReq 1 1 0 (List.replicate 127 0)).wellFormed = true ∧
    (Instr.submitRead 65536 (2 ^ 40)).wellFormed = true := by decide
theorem witness_RequestFramesHaveOneReading :
    decode ⟨.request, [0, 1, 0, 0, 0, 6, 1, 3, 0, 0, 0, 2]⟩ = .ok (.rdReq 1 1 0 2) ∧
    decode ⟨.request, [0, 1, 0, 0, 0, 9, 1, 0x10, 0, 0x10, 0, 1, 2, 0, 0xFF]⟩ =
      .ok (.wrReq 1 1 0x10 [0xFF]) := by decide
theorem witness_SerializeWritesHighByteFirst : (0 : Nat) < ([0x00FF] : List U16).length := by decide
theorem witness_DeserializeReadsHighByteFirst :
    1 + 2 * 1 ≤ ([7, 1, 2] : List Byte).length ∧ 0 < (Machine.deserialize [7, 1, 2] 1 1).length := by decide
theorem witness_SerdesRoundTrip : ([1, 2] : List Byte).length = 2 * 1 := by decide
theorem witness_ReadRequestBytes :
    ((0 : U16) = 0 ∨ 125 < (0 : U16).toNat) ∧ ((126 : U16) = 0 ∨ 125 < (126 : U16).toNat) ∧
    1 ≤ (1 : U16).toNat ∧ (1 : U16).toNat ≤ 125 ∧ 1 ≤ (125 : U16).toNat ∧ (125 : U16).toNat ≤ 125 := by
  decide
theorem witness_WriteRequestBytes :
    ([] : List U16).length = 0 ∧ 123 < (List.replicate 124 (0 : U16)).length ∧
    1 ≤ ([0] : List U16).length ∧ (List.replicate 123 (0 : U16)).length ≤ 123 := by decide
theorem witness_LengthFieldLaw_and_EncoderArgumentsReadBack :
    encodeReadRequest 1 1 0 2 = .ok [0, 1, 0, 0, 0, 6, 1, 3, 0, 0, 0, 2] ∧
    encodeWriteRequest 1 1 0x10 [0xFF] = .ok [0, 1, 0, 0, 0, 9, 1, 0x10, 0, 0x10, 0, 1, 2, 0, 0xFF] := by
  decide
theorem witness_ReadResponseByCases :
    ([0, 1, 0, 0, 0, 7, 1, 3] : List Byte).length < 9 ∧
    (9 ≤ ([0, 1, 0, 0, 0, 3, 1, 0x83, 2] : List Byte).length ∧
      byteAt [0, 1, 0, 0, 0, 3, 1, 0x83, 2] 7 = 0x83) ∧
    (9 ≤ (rspS1.take 12).length ∧ (rspS1.take 12).length < 9 + 2 * 2 ∧
      byteAt (rspS1.take 12) 7 ≠ 0x83) ∧
    (9 + 2 * 2 ≤ rspS1.length ∧ byteAt rspS1 7 = 0x03 ∧ (byteAt rspS1 8).toNat = 2 * 2) ∧
    (9 + 2 * 1 ≤ rspS1.length ∧ (byteAt rspS1 8).toNat ≠ 2 * 1) ∧
    (9 + 2 * 0 ≤ ([0, 1, 0, 0, 0, 3, 1, 4, 2] : List Byte).length ∧
      byteAt [0, 1, 0, 0, 0, 3, 1, 4, 2] 7 ≠ 0x03 ∧ byteAt [0, 1, 0, 0, 0, 3, 1, 4, 2] 7 ≠ 0x83) := by
  decide

/-- The write responses V1, V2, V3, V12 of 95_test_vectors.md. -/
def rspV1 : List Byte := [0, 1, 0, 0, 0, 6, 1, 0x10, 0, 0x10, 0, 1]
def rspV2 : List Byte := [0, 1, 0, 0, 0, 6, 1, 0x10, 0, 0x10, 0, 2]
def rspV3 : List Byte := [0, 1, 0, 0, 0, 6, 1, 0x10, 0, 0x11, 0, 1]
def rspV12 : List Byte := [0, 1, 0, 0, 0, 6, 1, 3, 0, 0x10, 0, 1]

theorem witness_WriteResponseByCases :
    (rspV1.take 8).length < 9 ∧
    (9 ≤ ([0, 1, 0, 0, 0, 3, 1, 0x90, 3] : List Byte).length ∧
      byteAt [0, 1, 0, 0, 0, 3, 1, 0x90, 3] 7 = 0x90) ∧
    (9 ≤ (rspV1.take 11).length ∧ (rspV1.take 11).length < 12 ∧ byteAt (rspV1.take 11) 7 ≠ 0x90) ∧
    (12 ≤ rspV12.length ∧ byteAt rspV12 7 ≠ 0x10 ∧ byteAt rspV12 7 ≠ 0x90) ∧
    (12 ≤ rspV3.length ∧ byteAt rspV3 7 = 0x10 ∧ be16 (byteAt rspV3 8) (byteAt rspV3 9) ≠ 0x10) ∧
    (be16 (byteAt rspV2 8) (byteAt rspV2 9) = 0x10 ∧ be16 (byteAt rspV2 10) (byteAt rspV2 11) ≠ 1) ∧
    (12 ≤ rspV1.length ∧ byteAt rspV1 7 = 0x10 ∧ be16 (byteAt rspV1 8) (byteAt rspV1 9) = 0x10 ∧
      be16 (byteAt rspV1 10) (byteAt rspV1 11) = 1) := by decide
theorem witness_ReadResponseRoundTrip :
    1 ≤ ([7] : List U16).length ∧ (List.replicate 125 (7 : U16)).length ≤ 125 := by decide
theorem witness_WriteEchoLaw : (0x11 : U16) ≠ 0x10 ∨ (1 : U16) ≠ 1 := by decide
/-- Two ways of reading that differ at every offset but 7 and 8. -/
theorem witness_DecodersReadOnlyInsideTheBuffer :
    (∀ i, 7 ≤ i → i < 9 → (fun _ : Nat => (3 : Byte)) i =
      (fun j : Nat => if 7 ≤ j ∧ j < 9 then (3 : Byte) else 4) i) := by
  intro i h7 h9
  simp [h7, h9]
theorem witness_ExceptionBitIsNeverAValue :
    128 ≤ (byteAt [0, 1, 0, 0, 0, 3, 1, 0x80, 2] 7).toNat := by decide
theorem witness_CodecCallsReturnAndChangeNothingElse :
    9 + 2 * 2 ≤ rspS1.length ∧ rspS1.length < 9 + 2 * 3 ∧ 1 ≤ (125 : U16).toNat ∧
    (125 : U16).toNat ≤ 125 ∧ 125 < (126 : U16).toNat ∧ 1 ≤ ([7] : List U16).length ∧
    ([7] : List U16).length ≤ 123 ∧ 123 < (List.replicate 124 (7 : U16)).length := by decide
theorem witness_RejectedSubmissionsChangeNoState :
    sClosed.state = .closed ∧ s1.state = .awaitingResponse p1 5 ∧ s0.state = .idle ∧
    125 < 126 ∧ ([] : List Nat).length = 0 ∧ 123 < (List.replicate 124 0).length := by decide
theorem witness_OperandsThatDoNotFitAreInvalidParameters :
    s0.state = .idle ∧ 65536 ≤ 65536 ∧ (∃ v ∈ [1, 65536], 65536 ≤ v) ∧ 256 ≤ 256 ∧
    2 ^ 32 ≤ 2 ^ 32 := by decide
theorem witness_AcceptedReadIsSentAndAwaited :
    s0.state = .idle ∧ 1 ≤ (125 : U16).toNat ∧ (125 : U16).toNat ≤ 125 ∧
    frameAvailable s0.rxbuf = none := by decide
theorem witness_AcceptedWriteIsSentAndAwaited :
    s0.state = .idle ∧ 1 ≤ (List.replicate 123 (7 : U16)).length ∧
    (List.replicate 123 (7 : U16)).length ≤ 123 ∧ frameAvailable s0.rxbuf = none := by decide
theorem witness_BufferedFrameResolvesTheSubmission :
    ({ s0 with rxbuf := rspS1 } : State).state = .idle ∧ frameAvailable rspS1 = some 13 ∧
    encodeReadRequest 1 1 0 2 = .ok [0, 1, 0, 0, 0, 6, 1, 3, 0, 0, 0, 2] ∧
    encodeWriteRequest 1 1 0x10 [0xFF] = .ok [0, 1, 0, 0, 0, 9, 1, 0x10, 0, 0x10, 0, 1, 2, 0, 0xFF] := by
  decide
theorem witness_StaleFrameFailsTheNextRead :
    ({ s0 with nextTid := 2, rxbuf := rspS1 ++ [9] } : State).rxbuf = rspS1 ++ [9] ∧
    frameAvailable rspS1 = some rspS1.length ∧ be16 (byteAt rspS1 0) (byteAt rspS1 1) ≠ 2 ∧
    1 ≤ (1 : U16).toNat ∧ (1 : U16).toNat ≤ 125 := by decide
theorem witness_FramingRule :
    ([0, 1, 0, 0, 0] : List Byte).length < 6 ∧
    (6 ≤ ([0, 1, 0, 0, 0, 1] : List Byte).length ∧
      ([0, 1, 0, 0, 0, 1] : List Byte).length <
        6 + (be16 (byteAt [0, 1, 0, 0, 0, 1] 4) (byteAt [0, 1, 0, 0, 0, 1] 5)).toNat) ∧
    6 + (be16 (byteAt [0, 1, 0, 0, 0, 0] 4) (byteAt [0, 1, 0, 0, 0, 0] 5)).toNat ≤
      ([0, 1, 0, 0, 0, 0] : List Byte).length := by decide
theorem witness_CompleteFrameOutcome :
    be16 (byteAt rspS1 0) (byteAt rspS1 1) ≠ (⟨.read, 2, 0, 2⟩ : Pend).tid ∧
    be16 (byteAt rspS1 0) (byteAt rspS1 1) = p1.tid ∧ p1.kind = .read ∧
    decodeReadResponse rspS1 p1.count.toNat = .ok [10, 20] ∧
    decodeReadResponse rspV1 p1.count.toNat = .error .malformedFrame ∧
    be16 (byteAt rspV1 0) (byteAt rspV1 1) = pw.tid ∧ pw.kind = .write ∧
    decodeWriteResponse rspV1 pw.addr pw.count = .ok () ∧
    decodeWriteResponse rspV2 pw.addr pw.count = .error .protocolError := by decide
/-- Vector T24 against T6: protocol id and unit id differ. -/
theorem witness_UnexaminedHeaderFields :
    rspS1.length = (0 :: 1 :: 0x12 :: 0x34 :: 0 :: 7 :: 0xFF :: rspS1.drop 7).length ∧
    ∀ i, i ≠ 2 → i ≠ 3 → i ≠ 6 →
      byteAt rspS1 i = byteAt (0 :: 1 :: 0x12 :: 0x34 :: 0 :: 7 :: 0xFF :: rspS1.drop 7) i := by
  refine ⟨by decide, fun i h2 h3 h6 => ?_⟩
  match i with
  | 0 | 1 | 4 | 5 => rfl
  | 2 => exact absurd rfl h2
  | 3 => exact absurd rfl h3
  | 6 => exact absurd rfl h6
  | j + 7 => rfl
theorem witness_WhatSuccessProves :
    answer p1 rspS1 = .okValues [10, 20] ∧ answer pw rspV1 = .okWritten := by decide
theorem witness_ChunkingIsImmaterial :
    ([[0, 1, 0], [0, 0]] : List (List Byte)).flatten = ([[], [0], [1, 0, 0, 0]] : List (List Byte)).flatten :=
  by decide
theorem witness_RxInIdleKeepsTheBytes : sCap.state = .idle ∧ RoomFor sCap ([1] : List Byte).length := by
  refine ⟨rfl, fun c hc => ?_⟩
  cases hc
  decide
theorem witness_RxInClosedDropsTheBytes : sClosed.state = .closed := rfl
theorem witness_RxOfAnIncompleteFrameWaits :
    s1.state = .awaitingResponse p1 5 ∧ frameAvailable (s1.rxbuf ++ rspS1.take 12) = none ∧
    RoomFor s1 (rspS1.take 12).length := ⟨rfl, by decide, roomFor_unbounded _ _ rfl⟩
/-- Program P1's fragmentation, with two bytes of surplus in the last chunk. -/
theorem witness_ReassemblyOfOneFrame :
    s1.state = .awaitingResponse p1 5 ∧ frameAvailable s1.rxbuf = none ∧
    s1.rxbuf ++ [rspS1.take 3, rspS1.drop 3 ++ [0xDE, 0xAD]].flatten = rspS1 ++ [0xDE, 0xAD] ∧
    frameAvailable rspS1 = some rspS1.length ∧
    RoomFor s1 [rspS1.take 3, rspS1.drop 3 ++ [0xDE, 0xAD]].flatten.length :=
  ⟨rfl, by decide, by decide, by decide, roomFor_unbounded _ _ rfl⟩
theorem witness_RxBeyondCapacityIsRefused :
    sFull.params.rxCapacity = some 259 ∧ sFull.rxbuf.length ≤ 259 ∧
    259 < sFull.rxbuf.length + ([1] : List Byte).length ∧ sFull.state = .idle ∧
    frameAvailable (sFull.rxbuf ++ [1]) = none ∧
    ({ sFull with state := .awaitingResponse p1 5 } : State).state = .awaitingResponse p1 5 := by decide
theorem test_rx_beyond_capacity : exec (.rx [1]) sFull = .refused .rxOverflow := rfl
theorem witness_ResponseBytesAreReceived :
    decode ⟨.response, rspV1⟩ = .ok (.wrRsp ⟨1, 0, 6, 1⟩ 0x10 1 []) := by decide
theorem witness_ReadResponseCompletesTheRead :
    s1.state = .awaitingResponse p1 5 ∧ p1.kind = .read ∧ s1.rxbuf = [] ∧ (1 : U16) = p1.tid ∧
    (7 : U16).toNat = 3 + ([0, 0x0A, 0, 0x14] : List Byte).length ∧
    (4 : Byte).toNat = 2 * p1.count.toNat ∧
    2 * p1.count.toNat ≤ ([0, 0x0A, 0, 0x14] : List Byte).length ∧ RoomFor s1 (9 + 4) :=
  ⟨rfl, rfl, rfl, rfl, by decide, by decide, by decide, roomFor_unbounded _ _ rfl⟩
theorem witness_WriteResponseCompletesTheWrite :
    s1w.state = .awaitingResponse pw 5 ∧ pw.kind = .write ∧ s1w.rxbuf = [] ∧ (1 : U16) = pw.tid ∧
    (6 : U16).toNat = 6 + ([] : List Byte).length ∧ RoomFor s1w (12 + 0) ∧
    ((0x10 : U16) = pw.addr ∧ (1 : U16) = pw.count) ∧ ((0x10 : U16) ≠ pw.addr ∨ (2 : U16) ≠ pw.count) :=
  ⟨rfl, rfl, rfl, rfl, by decide, roomFor_unbounded _ _ rfl, by decide, by decide⟩
theorem witness_ExceptionResponseResolvesWithItsCode :
    s1.state = .awaitingResponse p1 5 ∧ s1.rxbuf = [] ∧ (1 : U16) = p1.tid ∧ p1.kind = .read ∧
    (3 : U16).toNat = 3 + ([] : List Byte).length ∧ RoomFor s1 (9 + 0) ∧
    s1w.state = .awaitingResponse pw 5 ∧ (1 : U16) = pw.tid ∧ pw.kind = .write :=
  ⟨rfl, rfl, rfl, rfl, by decide, roomFor_unbounded _ _ rfl, rfl, rfl, rfl⟩
theorem witness_TickCountsDownAndTimesOut :
    (s0.state = .idle ∨ s0.state = .closed) ∧ (sClosed.state = .idle ∨ sClosed.state = .closed) ∧
    s1.state = .awaitingResponse p1 5 ∧ 1 < (2 : Ticks).toNat ∧ (1 : Ticks).toNat ≤ 1 ∧
    (0 : Ticks).toNat ≤ 1 ∧ 4 < max 1 (5 : Ticks).toNat ∧ 0 < max 1 (0 : Ticks).toNat := by decide
theorem witness_TransportErrorRule_and_CloseRule :
    sClosed.state = .closed ∧ s0.state = .idle ∧ s1.state = .awaitingResponse p1 5 := by decide
theorem witness_ClosedIsQuiet :
    sClosed.state = .closed ∧ Instr.submitRead 0 1 ≠ .reset ∧
    exec (.submitRead 0 1) sClosed = .next { sClosed with outputs := [.reject .closed] } :=
  ⟨rfl, by decide, rfl⟩
theorem witness_EveryStepKeepsTheInvariants : StateInv s0 ∧ step s0 = .next s0 := by
  refine ⟨⟨?_, ?_, ?_, by decide, ?_, ?_⟩, rfl⟩
  · intro p t h; cases h
  · intro h; rfl
  · intro p t h; cases h
  · intro c hc; cases hc
  · intro c hc; cases hc
/-- A submission, an answer and a submission left outstanding. -/
theorem witness_EveryAcceptedSubmissionResolvesOnce :
    Instr.reset ∉ [Instr.submitRead 0 2, .rx rspS1, .submitRead 0 1] ∧
    (seen (execAll [Instr.submitRead 0 2, .rx rspS1, .submitRead 0 1] s0)).isSome = true := by decide
theorem witness_IdentifiersCountRequestsSent :
    Instr.submitRead 0 2 ≠ .reset ∧ (seen (exec (.submitRead 0 2) s0)).isSome = true := by decide
theorem witness_WhoWritesWhat :
    Instr.tick ≠ .reset ∧ (∀ u, Instr.tick ≠ .cfgUnit u) ∧ (∀ d, Instr.tick ≠ .cfgTimeout d) ∧
    (∀ a c, Instr.tick ≠ .submitRead a c) ∧ (∀ a vs, Instr.tick ≠ .submitWrite a vs) ∧
    exec .tick s0 = .next s0 :=
  ⟨by decide, by simp, by simp, by simp, by simp, rfl⟩
theorem witness_EveryInstructionCompletes :
    s0.params.rxCapacity = none ∧ exec (.rx [1]) sFull = .refused .rxOverflow := ⟨rfl, rfl⟩

end Sys2Proof.Tests
end

/-! # Proofs about the whole machine: reset, the codec calls, the step invariants and the write frames -/

/-! ### The encoders' answers and bytes (R72, R73, R120, R121) -/
section
namespace Sys2Proof.Machine

/-- A number below 256 on the wire (R41): its high byte is zero. -/
theorem be16Bytes_ofNat_of_lt (n : Nat) (h : n < 256) :
    be16Bytes (BitVec.ofNat 16 n) = [0x00, BitVec.ofNat 8 n] := by
  have hhi : hi8 (BitVec.ofNat 16 n) = 0x00 := by
    apply BitVec.eq_of_toNat_eq
    rw [hi8_toNat, BitVec.toNat_ofNat]
    simp
    omega
  have hlo : lo8 (BitVec.ofNat 16 n) = BitVec.ofNat 8 n := by
    apply BitVec.eq_of_toNat_eq
    rw [lo8_toNat, BitVec.toNat_ofNat, BitVec.toNat_ofNat]
    omega
  rw [be16Bytes, hhi, hlo]

/-- R73, byte by byte, for the values a write can carry. -/
theorem wrReqFrame_eq (tid : U16) (unitId : Byte) (addr : U16) (values : List U16)
    (h : values.length ≤ 123) :
    wrReqFrame tid unitId addr values =
      [hi8 tid, lo8 tid, 0x00, 0x00, 0x00, BitVec.ofNat 8 (7 + 2 * values.length), unitId, 0x10,
        hi8 addr, lo8 addr, 0x00, BitVec.ofNat 8 values.length,
        BitVec.ofNat 8 (2 * values.length)] ++ serialize values := by
  unfold wrReqFrame Config.wrReqLengthField
  rw [be16Bytes_ofNat_of_lt _ (by omega), be16Bytes_ofNat_of_lt _ (by omega)]
  rfl

theorem encodeReadRequest_of_legal (tid : U16) (unitId : Byte) (addr count : U16)
    (h1 : 1 ≤ count.toNat) (h2 : count.toNat ≤ 125) :
    encodeReadRequest tid unitId addr count = .ok (rdReqFrame tid unitId addr count) := by
  apply if_neg
  rintro (rfl | h)
  · exact absurd h1 (by decide)
  · exact absurd h2 (by simpa [Config.maxReadRegs] using h)

theorem encodeReadRequest_of_illegal (tid : U16) (unitId : Byte) (addr count : U16)
    (h : count = 0 ∨ 125 < count.toNat) :
    encodeReadRequest tid unitId addr count = .error .invalidParameters := if_pos h

theorem encodeWriteRequest_of_legal (tid : U16) (unitId : Byte) (addr : U16) (values : List U16)
    (h1 : 1 ≤ values.length) (h2 : values.length ≤ 123) :
    encodeWriteRequest tid unitId addr values = .ok (wrReqFrame tid unitId addr values) :=
  if_neg (by simp only [Config.maxWriteRegs]; omega)

theorem encodeWriteRequest_of_illegal (tid : U16) (unitId : Byte) (addr : U16) (values : List U16)
    (h : values.length = 0 ∨ 123 < values.length) :
    encodeWriteRequest tid unitId addr values = .error .invalidParameters := if_pos h

/-- R120: a read is encoded only with a legal count. -/
theorem count_of_encodeReadRequest_ok {tid : U16} {unitId : Byte} {addr count : U16} {f : List Byte}
    (h : encodeReadRequest tid unitId addr count = .ok f) :
    1 ≤ count.toNat ∧ count.toNat ≤ 125 := by
  by_contra hc
  have hbad : count = 0 ∨ 125 < count.toNat := by
    by_cases h0 : count.toNat = 0
    · exact .inl (BitVec.eq_of_toNat_eq h0)
    · exact .inr (by omega)
  rw [encodeReadRequest_of_illegal _ _ _ _ hbad] at h
  cases h

/-- R121: a write is encoded only with a legal number of values. -/
theorem length_of_encodeWriteRequest_ok {tid : U16} {unitId : Byte} {addr : U16}
    {values : List U16} {f : List Byte} (h : encodeWriteRequest tid unitId addr values = .ok f) :
    1 ≤ values.length ∧ values.length ≤ 123 := by
  by_contra hc
  rw [encodeWriteRequest_of_illegal _ _ _ _ (by omega)] at h
  cases h

end Sys2Proof.Machine
end

/-! ### What an instruction can do, said once for the whole table -/
section
namespace Sys2Proof.Machine

/-- R24.5 for the latch that an accepted request loads. -/
def Request.CountLegal (q : Request) : Prop :=
  ∀ tid, Pend.countInRange ⟨q.kind, tid, q.addr, q.count⟩

theorem readRequest_countLegal {tid : U16} {unitId : Byte} {addr count : Nat} {q : Request}
    (h : readRequest tid unitId addr count = .ok q) : q.CountLegal := by
  rcases readRequest_cases tid unitId addr count with ⟨a, c, f, -, -, hok, e⟩ | ⟨-, e⟩
  · rw [e] at h
    cases h
    exact fun _ => count_of_encodeReadRequest_ok hok
  · rw [e] at h
    cases h

theorem writeRequest_countLegal {tid : U16} {unitId : Byte} {addr : Nat} {values : List Nat}
    {q : Request} (h : writeRequest tid unitId addr values = .ok q) : q.CountLegal := by
  rcases writeRequest_cases tid unitId addr values with ⟨a, vs, f, -, -, hok, e⟩ | ⟨-, e⟩
  · rw [e] at h
    cases h
    obtain ⟨h1, h2⟩ := length_of_encodeWriteRequest_ok hok
    have hcount : (BitVec.ofNat 16 vs.length).toNat = vs.length := by
      rw [BitVec.toNat_ofNat]
      omega
    intro _
    simp only [Pend.countInRange, hcount, Config.maxWriteRegs]
    exact ⟨h1, h2⟩
  · rw [e] at h
    cases h

/-- The two submissions (R160, R161). -/
def Submits (i : Instr) : Prop :=
  (∃ addr count, i = .submitRead addr count) ∨ ∃ addr values, i = .submitWrite addr values

/-- What an instruction can do to the state `s` when it completes: one constructor for each thing that
can happen, with the condition of the state on which it does. The instruction is named where it matters to
who may write a register; for the rest it stays open. -/
inductive Effect (s : State) : Instr → State → Prop
  /-- A codec call, or a configuration operand that does not fit (R23, R124). -/
  | returns (i : Instr) (r : Returned) : Effect s i (giveBack r s)
  /-- A submission that is not accepted (R209). -/
  | rejects (i : Instr) (e : Err) : Submits i → Effect s i (reject e s)
  /-- A submission that is (R160, R161). -/
  | accepts (i : Instr) (q : Request) :
      Submits i → s.state = .idle → q.CountLegal → Effect s i (tryComplete (accept q s))
  /-- Bytes arrive (R165). -/
  | receives (i : Instr) (bytes : List Byte) (t : State) : receive bytes s = .next t → Effect s i t
  /-- The timer counts down (R171). -/
  | counts (p : Pend) (r : Ticks) :
      s.state = .awaitingResponse p r → 1 < r.toNat →
        Effect s .tick { s with state := .awaitingResponse p (r - 1) }
  /-- `Tick` at the end of the timer, `TransportError` and `Close` end the request (R171 to R173). -/
  | aborts (i : Instr) (p : Pend) (r : Ticks) (e : Err) (after : Phase) :
      s.state = .awaitingResponse p r → after = .idle ∨ after = .closed →
        Effect s i (resolve (.err e) after (discardRx s))
  /-- `TransportError` in `Idle` (R172). -/
  | drops : s.state = .idle → Effect s .transportError (discardRx s)
  /-- `Close` in `Idle` (R173). -/
  | closes : s.state = .idle → Effect s .close { discardRx s with state := .closed }
  /-- An event without effect in the present state (R171 to R173). -/
  | ignores (i : Instr) : Effect s i s
  /-- R174. -/
  | setsUnit (u : Nat) (b : Byte) : Effect s (.cfgUnit u) { s with unitId := b }
  /-- R175. -/
  | setsTimeout (n : Nat) (d : Ticks) : Effect s (.cfgTimeout n) { s with timeout := d }
  /-- R240. -/
  | resets (t : State) : execReset s = .next t → Effect s .reset t

theorem submit_effect (i : Instr) (r : Except Err Request) (s : State) (hi : Submits i)
    (hr : ∀ q, r = .ok q → q.CountLegal) : Effect s i (submit r s) := by
  rcases submit_cases r s with ⟨-, e⟩ | ⟨-, e⟩ | ⟨err, -, -, e⟩ | ⟨q, hs, hq, e⟩ <;> rw [e]
  · exact .rejects i _ hi
  · exact .rejects i _ hi
  · exact .rejects i _ hi
  · exact .accepts i q hi hs (hr q hq)

theorem execTick_effect {s t : State} (h : execTick s = .next t) : Effect s .tick t := by
  unfold execTick at h
  split at h
  next p r hs =>
    split at h <;> cases h
    next => exact .aborts _ p r .timeout .idle hs (.inl rfl)
    next hr => exact .counts p r hs (by omega)
  next => cases h; exact .ignores _
  next => cases h; exact .ignores _

theorem execTransportError_effect {s t : State} (h : execTransportError s = .next t) :
    Effect s .transportError t := by
  unfold execTransportError at h
  split at h <;> cases h
  next p r hs => exact .aborts _ p r .transportError .idle hs (.inl rfl)
  next hs => exact .drops hs
  next => exact .ignores _

theorem execClose_effect {s t : State} (h : execClose s = .next t) : Effect s .close t := by
  unfold execClose at h
  split at h <;> cases h
  next p r hs => exact .aborts _ p r .closed .closed hs (.inr rfl)
  next hs => exact .closes hs
  next => exact .ignores _

theorem execCfgUnit_effect {u : Nat} {s t : State} (h : execCfgUnit u s = .next t) :
    Effect s (.cfgUnit u) t := by
  rcases execCfgUnit_cases u s with ⟨b, -, e⟩ | ⟨-, e⟩ <;> rw [e] at h <;> cases h
  · exact .setsUnit u b
  · exact .returns _ _

theorem execCfgTimeout_effect {n : Nat} {s t : State} (h : execCfgTimeout n s = .next t) :
    Effect s (.cfgTimeout n) t := by
  rcases execCfgTimeout_cases n s with ⟨d, -, e⟩ | ⟨-, e⟩ <;> rw [e] at h <;> cases h
  · exact .setsTimeout n d
  · exact .returns _ _

theorem execSerialize_effect {values : List Nat} {s t : State}
    (h : execSerialize values s = .next t) : Effect s (.serialize values) t := by
  rcases execSerialize_cases values s with ⟨vs, -, e⟩ | ⟨-, e⟩ <;> rw [e] at h <;> cases h <;>
    exact .returns _ _

theorem execDeserialize_effect {buffer : List Byte} {offset n : Nat} {s t : State}
    (h : execDeserialize buffer offset n s = .next t) :
    Effect s (.deserialize buffer offset n) t := by
  unfold execDeserialize at h
  split at h <;> cases h <;> exact .returns _ _

/-- The inversion of `exec`: whatever completes did one of the things `Effect` lists. -/
theorem exec_effect {i : Instr} {s t : State} (h : exec i s = .next t) : Effect s i t := by
  cases i with
  | rdReq tid unitId addr count => cases h; exact .returns _ _
  | wrReq tid unitId addr values => cases h; exact .returns _ _
  | rdRsp header byteCount rest => exact .receives _ _ t h
  | rdExc header code rest => exact .receives _ _ t h
  | wrRsp header addr count rest => exact .receives _ _ t h
  | wrExc header code rest => exact .receives _ _ t h
  | submitRead addr count =>
    cases h
    exact submit_effect _ _ _ (.inl ⟨addr, count, rfl⟩) fun _ => readRequest_countLegal
  | submitWrite addr values =>
    cases h
    exact submit_effect _ _ _ (.inr ⟨addr, values, rfl⟩) fun _ => writeRequest_countLegal
  | rx bytes => exact .receives _ bytes t h
  | tick => exact execTick_effect h
  | transportError => exact execTransportError_effect h
  | close => exact execClose_effect h
  | cfgUnit u => exact execCfgUnit_effect h
  | cfgTimeout n => exact execCfgTimeout_effect h
  | reset => exact .resets t h
  | serialize values => exact execSerialize_effect h
  | deserialize buffer offset n => exact execDeserialize_effect h

end Sys2Proof.Machine
end

/-! ### The invariants of R24 -/
section
namespace Sys2Proof.Machine

/-- R132: a decoded read has as many registers as were asked for. -/
theorem length_of_decodeReadResponse_ok {buffer : List Byte} {n : Nat} {vs : List U16}
    (h : decodeReadResponse buffer n = .ok vs) : vs.length = n := by
  unfold decodeReadResponse decodeReadFrom at h
  split_ifs at h
  cases h
  exact deserializeFrom_length _ _ _

/-- R166: only a read delivers values, and as many as were asked for. -/
theorem answer_okValues {p : Pend} {frame : List Byte} {vs : List U16}
    (h : answer p frame = .okValues vs) : p.kind = .read ∧ vs.length = p.count.toNat := by
  unfold answer at h
  split at h
  · split at h
    next hk =>
      cases hd : decodeReadResponse frame p.count.toNat with
      | ok ws =>
        rw [hd] at h
        cases h
        exact ⟨hk, length_of_decodeReadResponse_ok hd⟩
      | error e =>
        rw [hd] at h
        cases h
    next =>
      cases hd : decodeWriteResponse frame p.addr p.count <;> rw [hd] at h <;> cases h
  · cases h

/-- R10: what the answer to a legal request leaves in `val` is at most 125 registers. -/
theorem valAfter_answer_length {p : Pend} (hp : p.countInRange) (frame : List Byte) {v : List U16}
    (hv : v.length ≤ 125) : (valAfter (answer p frame) v).length ≤ 125 := by
  cases ha : answer p frame with
  | okValues vs =>
    obtain ⟨hk, hlen⟩ := answer_okValues ha
    have hmax : p.count.toNat ≤ 125 := by
      have h := hp.2
      rwa [hk] at h
    exact hlen ▸ hmax
  | okWritten => exact hv
  | err e => exact hv

/-- The invariants without R24.3, which is what the trial of completion restores. -/
structure InvBeforeTrial (s : State) : Prop where
  closedEmpty : s.state = .closed → s.rxbuf = []
  countLegal : ∀ p r, s.state = .awaitingResponse p r → p.countInRange
  valBounded : s.val.length ≤ 125
  rxBounded : ∀ c, s.params.rxCapacity = some c → s.rxbuf.length ≤ c
  paramsLegal : s.params.Legal

theorem stateInv_iff (s : State) :
    StateInv s ↔ InvBeforeTrial s ∧
      ∀ p r, s.state = .awaitingResponse p r → frameAvailable s.rxbuf = none :=
  ⟨fun ⟨frame, empty, count, val, rx, params⟩ => ⟨⟨empty, count, val, rx, params⟩, frame⟩,
    fun ⟨⟨empty, count, val, rx, params⟩, frame⟩ => ⟨frame, empty, count, val, rx, params⟩⟩

/-- R166: the trial of completion leaves no complete frame waiting. -/
theorem tryComplete_stateInv {s : State} (h : InvBeforeTrial s) : StateInv (tryComplete s) := by
  rcases tryComplete_cases s with ⟨p, r, size, hs, -, e⟩ | ⟨e, hnone⟩
  · have hdrop : (s.rxbuf.drop size).length ≤ s.rxbuf.length := by simp
    rw [e, complete_eq]
    exact
      { noCompleteFrame := nofun
        closedEmpty := nofun
        countLegal := nofun
        valBounded := valAfter_answer_length (h.countLegal p r hs) _ h.valBounded
        rxBounded := fun c hc => hdrop.trans (h.rxBounded c hc)
        paramsLegal := h.paramsLegal }
  · rw [e]
    exact (stateInv_iff s).mpr ⟨h, hnone⟩

/-- The invariants speak of `state`, `rxbuf`, `val` and the parameters alone. -/
theorem StateInv.of_eq {s t : State} (h : StateInv s) (hstate : t.state = s.state)
    (hrx : t.rxbuf = s.rxbuf) (hval : t.val = s.val) (hparams : t.params = s.params) :
    StateInv t where
  noCompleteFrame := by rw [hstate, hrx]; exact h.noCompleteFrame
  closedEmpty := by rw [hstate, hrx]; exact h.closedEmpty
  countLegal := by rw [hstate]; exact h.countLegal
  valBounded := by rw [hval]; exact h.valBounded
  rxBounded := by rw [hparams, hrx]; exact h.rxBounded
  paramsLegal := by rw [hparams]; exact h.paramsLegal

/-- With no request outstanding and an empty `rxbuf` only the bounds of R10 and R252 are left. -/
theorem stateInv_of_emptied {t : State} (hstate : t.state = .idle ∨ t.state = .closed)
    (hrx : t.rxbuf = []) (hval : t.val.length ≤ 125) (hparams : t.params.Legal) : StateInv t where
  noCompleteFrame p r ha := by rcases hstate with h | h <;> rw [h] at ha <;> cases ha
  closedEmpty _ := hrx
  countLegal p r ha := by rcases hstate with h | h <;> rw [h] at ha <;> cases ha
  valBounded := hval
  rxBounded c _ := by simp [hrx]
  paramsLegal := hparams

/-- R160: an accepted submission has them but for R24.3. -/
theorem accept_invBeforeTrial {q : Request} {s : State} (hq : q.CountLegal) (h : StateInv s) :
    InvBeforeTrial (accept q s) where
  closedEmpty := nofun
  countLegal p r ha := by
    cases ha
    exact hq s.nextTid
  valBounded := h.valBounded
  rxBounded := h.rxBounded
  paramsLegal := h.paramsLegal

/-- R165: so has the append of one byte where there is room. -/
theorem append_invBeforeTrial {s : State} (b : Byte) (hs : s.state ≠ .closed)
    (hroom : hasRoom s = true) (h : StateInv s) :
    InvBeforeTrial { s with rxbuf := s.rxbuf ++ [b] } where
  closedEmpty hc := absurd hc hs
  countLegal := h.countLegal
  valBounded := h.valBounded
  rxBounded c hc := by
    have := (hasRoom_iff s).mp hroom c hc
    simpa using this
  paramsLegal := h.paramsLegal

theorem receiveByte_stateInv (b : Byte) (s t : State) (h : StateInv s)
    (ht : receiveByte b s = .next t) : StateInv t := by
  rcases receiveByte_next b s t ht with ⟨-, rfl⟩ | ⟨hs, hroom, rfl⟩
  · exact h
  · exact tryComplete_stateInv (append_invBeforeTrial b hs hroom h)

/-- R171: counting down leaves the outstanding request and `rxbuf` as they are. -/
theorem countdown_stateInv {s : State} {p : Pend} {r : Ticks} (r' : Ticks)
    (hs : s.state = .awaitingResponse p r) (h : StateInv s) :
    StateInv { s with state := .awaitingResponse p r' } where
  noCompleteFrame _ _ _ := h.noCompleteFrame p r hs
  closedEmpty := nofun
  countLegal q _ ha := by
    cases ha
    exact h.countLegal p r hs
  valBounded := h.valBounded
  rxBounded := h.rxBounded
  paramsLegal := h.paramsLegal

/-- Every effect of an instruction keeps the invariants. -/
theorem Effect.stateInv {i : Instr} {s t : State} (he : Effect s i t) (h : StateInv s) :
    StateInv t := by
  cases he with
  | returns _ r => exact h.of_eq rfl rfl rfl rfl
  | rejects _ e hi => exact h.of_eq rfl rfl rfl rfl
  | accepts _ q hi hs hq => exact tryComplete_stateInv (accept_invBeforeTrial hq h)
  | receives _ bytes _ ht => exact receive_keeps receiveByte_stateInv bytes s t h ht
  | counts p r hs hr => exact countdown_stateInv _ hs h
  | aborts _ p r e after hs hafter =>
    exact stateInv_of_emptied hafter rfl h.valBounded h.paramsLegal
  | drops hs => exact stateInv_of_emptied (.inl hs) rfl h.valBounded h.paramsLegal
  | closes hs => exact stateInv_of_emptied (.inr rfl) rfl h.valBounded h.paramsLegal
  | ignores => exact h
  | setsUnit u b => exact h.of_eq rfl rfl rfl rfl
  | setsTimeout n d => exact h.of_eq rfl rfl rfl rfl
  | resets _ ht =>
    cases ht
    exact stateInv_of_emptied (.inl rfl) rfl (Nat.zero_le _) h.paramsLegal

/-- What a step is: no instruction, with at most an input taken, or `exec` with its input taken. -/
theorem step_cases {s t : State} (h : step s = .next t) :
    ∃ rest, t = { s with inputs := rest } ∨ ∃ i, exec i { s with inputs := rest } = .next t := by
  unfold step at h
  split at h
  next u hu =>
    cases h
    rcases fetch_nothing s _ hu with ⟨-, rfl⟩ | ⟨_, rest, _, -, -, rfl⟩
    · exact ⟨_, .inl rfl⟩
    · exact ⟨rest, .inl rfl⟩
  next => cases h
  next i u hu =>
    obtain ⟨_, rest, -, -, rfl, -⟩ := fetch_run s u i hu
    exact ⟨rest, .inr ⟨i, h⟩⟩

end Sys2Proof.Machine

open Sys2Proof Sys2Proof.Machine

/-- Settles O50, by the inversion of `exec`: each of its effects keeps the invariants. -/
theorem everyStepKeepsTheInvariants : Obligations.EveryStepKeepsTheInvariants := by
  intro s t hinv hstep
  obtain ⟨rest, ht⟩ := step_cases hstep
  have hinputs := hinv.of_eq (t := { s with inputs := rest }) rfl rfl rfl rfl
  rcases ht with rfl | ⟨i, hexec⟩
  · exact hinputs
  · exact (exec_effect hexec).stateInv hinputs

/-- Settles O49: at reset `rxbuf` and `val` are empty and `RX_CAPACITY` is unbounded. -/
theorem invariantsHoldAtReset : Obligations.InvariantsHoldAtReset :=
  stateInv_of_emptied (.inl rfl) rfl (Nat.zero_le _) nofun

end

/-! ### The write frames -/
section
namespace Sys2Proof.Machine

/-- `outputs` only grow, and `val` changes only to what a `Resolve` among the new ones delivers (R166). -/
def ValDelivered (s t : State) : Prop :=
  ∃ os, t.outputs = s.outputs ++ os ∧ (t.val = s.val ∨ .resolve (.okValues t.val) ∈ os)

theorem ValDelivered.of_val_eq {s t : State} (os : List Output) (ho : t.outputs = s.outputs ++ os)
    (hv : t.val = s.val) : ValDelivered s t := ⟨os, ho, .inl hv⟩

theorem ValDelivered.trans {s t u : State} (hst : ValDelivered s t) (htu : ValDelivered t u) :
    ValDelivered s u := by
  obtain ⟨os, ho, hv⟩ := hst
  obtain ⟨os', ho', hv'⟩ := htu
  refine ⟨os ++ os', by rw [ho', ho, List.append_assoc], ?_⟩
  rcases hv' with hv' | hv'
  · rw [hv']
    exact hv.imp id (List.mem_append_left os')
  · exact .inr (List.mem_append_right os hv')

/-- `val` after an answer is as it was, or the values the answer delivers (R10 b; log 4). -/
theorem valAfter_cases (r : Result) (v : List U16) : valAfter r v = v ∨ r = .okValues (valAfter r v) := by
  cases r with
  | okValues vs => exact .inr rfl
  | okWritten => exact .inl rfl
  | err e => exact .inl rfl

theorem complete_valDelivered (p : Pend) (size : Nat) (s : State) :
    ValDelivered s (complete p size s) := by
  rw [complete_eq]
  refine ⟨_, rfl, (valAfter_cases (answer p (s.rxbuf.take size)) s.val).imp id fun h => ?_⟩
  exact List.mem_singleton.mpr (congrArg Output.resolve h.symm)

@[simp] theorem txCount_append (os os' : List Output) :
    txCount (os ++ os') = txCount os + txCount os' := List.countP_append

/-- The frame of everything but submissions, configuration events and `Reset`: only `state`, `rxbuf`,
`outputs` and, with the delivery of its values, `val` may change, and nothing is sent. -/
structure KeepsRegisters (s t : State) : Prop where
  nextTid : t.nextTid = s.nextTid
  unitId : t.unitId = s.unitId
  timeout : t.timeout = s.timeout
  params : t.params = s.params
  hasBeenReset : t.hasBeenReset = s.hasBeenReset
  inputs : t.inputs = s.inputs
  sent : txCount t.outputs = txCount s.outputs
  val : ValDelivered s t

theorem KeepsRegisters.trans {s t u : State} (hst : KeepsRegisters s t) (htu : KeepsRegisters t u) :
    KeepsRegisters s u where
  nextTid := htu.nextTid.trans hst.nextTid
  unitId := htu.unitId.trans hst.unitId
  timeout := htu.timeout.trans hst.timeout
  params := htu.params.trans hst.params
  hasBeenReset := htu.hasBeenReset.trans hst.hasBeenReset
  inputs := htu.inputs.trans hst.inputs
  sent := htu.sent.trans hst.sent
  val := hst.val.trans htu.val

theorem keepsRegisters_set (s : State) (phase : Phase) (rx : List Byte) :
    KeepsRegisters s { s with state := phase, rxbuf := rx } :=
  ⟨rfl, rfl, rfl, rfl, rfl, rfl, rfl, .of_val_eq [] (by simp) rfl⟩

theorem keepsRegisters_refl (s : State) : KeepsRegisters s s := keepsRegisters_set s s.state s.rxbuf

theorem keepsRegisters_emit (o : Output) (s : State) (ho : txCount [o] = 0) :
    KeepsRegisters s (emit o s) :=
  ⟨rfl, rfl, rfl, rfl, rfl, rfl, by simp [ho], .of_val_eq [o] rfl rfl⟩

theorem complete_keepsRegisters (p : Pend) (size : Nat) (s : State) :
    KeepsRegisters s (complete p size s) := by
  have hval := complete_valDelivered p size s
  rw [complete_eq] at hval ⊢
  exact ⟨rfl, rfl, rfl, rfl, rfl, rfl, by simp [txCount], hval⟩

theorem tryComplete_keepsRegisters (s : State) : KeepsRegisters s (tryComplete s) := by
  rcases tryComplete_cases s with ⟨p, r, size, -, -, e⟩ | ⟨e, -⟩ <;> rw [e]
  · exact complete_keepsRegisters p size s
  · exact keepsRegisters_refl s

theorem receiveByte_keepsRegisters {b : Byte} {s t : State} (h : receiveByte b s = .next t) :
    KeepsRegisters s t := by
  rcases receiveByte_next b s t h with ⟨-, rfl⟩ | ⟨-, -, rfl⟩
  · exact keepsRegisters_refl _
  · exact (keepsRegisters_set s s.state (s.rxbuf ++ [b])).trans (tryComplete_keepsRegisters _)

theorem receive_keepsRegisters {bytes : List Byte} {s t : State} (h : receive bytes s = .next t) :
    KeepsRegisters s t :=
  receive_keeps (P := KeepsRegisters s) (fun _ _ _ hs hb => hs.trans (receiveByte_keepsRegisters hb))
    bytes s t (keepsRegisters_refl s) h

/-- What an instruction writes: the registers stay, but for an acceptance, a configuration event and
`Reset`, which write the registers named here. -/
theorem Effect.write_cases {i : Instr} {s t : State} (he : Effect s i t) :
    KeepsRegisters s t ∨
    (Submits i ∧ ∃ q, KeepsRegisters (accept q s) t) ∨
    (∃ u b, i = .cfgUnit u ∧ t = { s with unitId := b }) ∨
    (∃ n d, i = .cfgTimeout n ∧ t = { s with timeout := d }) ∨
    (i = .reset ∧ execReset s = .next t) := by
  cases he with
  | returns _ r => exact .inl (keepsRegisters_emit _ s rfl)
  | rejects _ e hi => exact .inl (keepsRegisters_emit _ s rfl)
  | accepts _ q hi hs hq => exact .inr (.inl ⟨hi, q, tryComplete_keepsRegisters _⟩)
  | receives _ bytes _ ht => exact .inl (receive_keepsRegisters ht)
  | counts p r hs hr => exact .inl (keepsRegisters_set s _ _)
  | aborts _ p r e after hs hafter =>
    exact .inl ((keepsRegisters_set s after []).trans (keepsRegisters_emit _ _ rfl))
  | drops hs => exact .inl (keepsRegisters_set s _ _)
  | closes hs => exact .inl (keepsRegisters_set s _ _)
  | ignores => exact .inl (keepsRegisters_refl s)
  | setsUnit u b => exact .inr (.inr (.inl ⟨u, b, rfl, rfl⟩))
  | setsTimeout n d => exact .inr (.inr (.inr (.inl ⟨n, d, rfl, rfl⟩)))
  | resets _ ht => exact .inr (.inr (.inr (.inr ⟨rfl, ht⟩)))

theorem accept_valDelivered (q : Request) (s : State) : ValDelivered s (accept q s) :=
  .of_val_eq [.tx q.frame] rfl rfl

theorem accept_txCount (q : Request) (s : State) :
    txCount (accept q s).outputs = txCount s.outputs + 1 := by
  simp [txCount]

end Sys2Proof.Machine

open Sys2Proof Sys2Proof.Machine

/-- Settles O52: an acceptance sends one request and takes one identifier, and nothing else but `Reset`
does either. -/
theorem identifiersCountRequestsSent : Obligations.IdentifiersCountRequestsSent := by
  intro i s t hi hexec
  rcases (exec_effect hexec).write_cases with
    hkeep | ⟨-, q, hkeep⟩ | ⟨u, b, -, rfl⟩ | ⟨n, d, -, rfl⟩ | ⟨hreset, -⟩
  · exact ⟨0, hkeep.sent, by simp [hkeep.nextTid]⟩
  · exact ⟨1, hkeep.sent.trans (accept_txCount q s), hkeep.nextTid⟩
  · exact ⟨0, rfl, by simp⟩
  · exact ⟨0, rfl, by simp⟩
  · exact absurd hreset hi

/-- Settles O53, by the five ways an instruction can write. -/
theorem whoWritesWhat : Obligations.WhoWritesWhat := by
  intro i s t hexec
  rcases (exec_effect hexec).write_cases with
    hkeep | ⟨hsubmits, q, hkeep⟩ | ⟨u, b, rfl, rfl⟩ | ⟨n, d, rfl, rfl⟩ | ⟨rfl, hreset⟩
  · obtain ⟨os, houtputs, hval⟩ := hkeep.val
    exact ⟨hkeep.params, hkeep.inputs, ⟨os, houtputs, fun _ => hval⟩, fun _ => hkeep.hasBeenReset,
      fun _ _ => hkeep.unitId, fun _ _ => hkeep.timeout, fun _ _ _ => hkeep.nextTid⟩
  · obtain ⟨os, houtputs, hval⟩ := (accept_valDelivered q s).trans hkeep.val
    refine ⟨hkeep.params, hkeep.inputs, ⟨os, houtputs, fun _ => hval⟩, fun _ => hkeep.hasBeenReset,
      fun _ _ => hkeep.unitId, fun _ _ => hkeep.timeout, fun _ hread hwrite => ?_⟩
    rcases hsubmits with ⟨addr, count, rfl⟩ | ⟨addr, values, rfl⟩
    · exact absurd rfl (hread addr count)
    · exact absurd rfl (hwrite addr values)
  · exact ⟨rfl, rfl, ⟨[], by simp, fun _ => .inl rfl⟩, fun _ => rfl,
      fun _ hunit => absurd rfl (hunit u), fun _ _ => rfl, fun _ _ _ => rfl⟩
  · exact ⟨rfl, rfl, ⟨[], by simp, fun _ => .inl rfl⟩, fun _ => rfl,
      fun _ _ => rfl, fun _ htimeout => absurd rfl (htimeout n), fun _ _ _ => rfl⟩
  · cases hreset
    exact ⟨rfl, rfl, ⟨[], by simp, fun hne => absurd rfl hne⟩, fun hne => absurd rfl hne,
      fun hne => absurd rfl hne, fun hne => absurd rfl hne, fun hne => absurd rfl hne⟩

end

/-! ### Reset, the accessors and the codec calls -/
section
namespace Sys2Proof.Machine

/-- R23, R120: the row hands back what the encoder answers. -/
theorem exec_rdReq {tid : U16} {unitId : Byte} {addr count : U16} {r : Except Err (List Byte)}
    (s : State) (h : encodeReadRequest tid unitId addr count = r) :
    exec (.rdReq tid unitId addr count) s = .next (giveBack (encoderReturn r) s) := by
  subst h; rfl

/-- R23, R121: the row hands back what the encoder answers. -/
theorem exec_wrReq {tid : U16} {unitId : Byte} {addr : U16} {values : List U16}
    {r : Except Err (List Byte)} (s : State) (h : encodeWriteRequest tid unitId addr values = r) :
    exec (.wrReq tid unitId addr values) s = .next (giveBack (encoderReturn r) s) := by
  subst h; rfl

/-- R110: the row hands back the bytes of values that are u16. -/
theorem exec_serialize_toNat (values : List U16) (s : State) :
    exec (.serialize (values.map BitVec.toNat)) s =
      .next (giveBack (.bytes (serialize values)) s) := by
  simp [exec, execSerialize]

end Sys2Proof.Machine

open Sys2Proof Sys2Proof.Machine

/-- Settles O2: every clause is a field of `State.reset` (R25). -/
theorem resetStateHoldsTheResetValues : Obligations.ResetStateHoldsTheResetValues :=
  ⟨rfl, rfl, rfl, rfl, rfl, rfl, rfl, rfl, rfl⟩

/-- Settles O3, by what each accessor answers (R24.1, R24.2). -/
theorem pendAndTimerExistExactlyWhileAwaiting :
    Obligations.PendAndTimerExistExactlyWhileAwaiting := by
  intro s
  refine ⟨by simp only [pend_eq_some], ?_⟩
  simp only [timerRem_eq_some]
  exact exists_comm

/-- Settles O23, by the answer of the called function for legal and illegal operands. -/
theorem codecCallsReturnAndChangeNothingElse :
    Obligations.CodecCallsReturnAndChangeNothingElse := by
  intro s
  refine ⟨?_, ?_, ?_, ?_, fun values => exec_serialize_toNat values s, ?_, ?_⟩
  · intro tid unitId addr count h1 h2
    exact exec_rdReq s (encodeReadRequest_of_legal tid unitId addr count h1 h2)
  · intro tid unitId addr count h
    exact exec_rdReq s (encodeReadRequest_of_illegal tid unitId addr count h)
  · intro tid unitId addr values h1 h2
    have hframe := encodeWriteRequest_of_legal tid unitId addr values h1 h2
    rw [wrReqFrame_eq _ _ _ _ h2] at hframe
    exact exec_wrReq s hframe
  · intro tid unitId addr values h
    exact exec_wrReq s (encodeWriteRequest_of_illegal tid unitId addr values h)
  · intro buffer offset n h
    exact if_pos h
  · intro buffer offset n h
    exact if_neg (by omega)

end

/-! # Proofs about memory: what a step takes from its inputs, and bytes that reach `rxbuf` -/

/-! ### A step and the instruction it fetches (R48, R150) -/
section
namespace Sys2Proof.Machine

/-- The converse of `fetch_run`: an input that decodes to an instruction with a meaning is taken. -/
theorem fetch_of_decode {s : State} {x : Input} {rest : List Input} {i : Instr}
    (hinputs : s.inputs = x :: rest) (hdecode : decode x = .ok i)
    (hmeaning : s.hasBeenReset = true ∨ i = .reset ∨ isEvent i = false) :
    fetch s = .run i { s with inputs := rest } := by
  simp [fetch, hinputs, hdecode, hmeaning]

theorem step_of_fetch_run {s t : State} {i : Instr} (h : fetch s = .run i t) :
    step s = exec i t := by
  simp [step, h]

end Sys2Proof.Machine

open Sys2Proof Sys2Proof.Machine

/-- Settles O4: such an input is fetched, and what is fetched is run. -/
theorem stepRunsTheDecodedInstruction : Obligations.StepRunsTheDecodedInstruction := by
  intro s x rest i hinputs hdecode hmeaning
  exact step_of_fetch_run (fetch_of_decode hinputs hdecode hmeaning)

end

/-! ### The response channel carries received bytes (R40, R165) -/
section
namespace Sys2Proof.Machine

@[simp] theorem exec_rx (bytes : List Byte) (s : State) : exec (.rx bytes) s = receive bytes s := rfl

@[simp] theorem exec_rdRsp (h : Mbap) (byteCount : Byte) (rest : List Byte) (s : State) :
    exec (.rdRsp h byteCount rest) s = receive (rdRspFrame h byteCount rest) s := rfl

@[simp] theorem exec_rdExc (h : Mbap) (code : Byte) (rest : List Byte) (s : State) :
    exec (.rdExc h code rest) s = receive (rdExcFrame h code rest) s := rfl

@[simp] theorem exec_wrRsp (h : Mbap) (addr count : U16) (rest : List Byte) (s : State) :
    exec (.wrRsp h addr count rest) s = receive (wrRspFrame h addr count rest) s := rfl

@[simp] theorem exec_wrExc (h : Mbap) (code : Byte) (rest : List Byte) (s : State) :
    exec (.wrExc h code rest) s = receive (wrExcFrame h code rest) s := rfl

/-- R41: a field read from two bytes is written as the same two bytes. -/
@[simp] theorem be16Bytes_be16 (h l : Byte) : be16Bytes (be16 h l) = [h, l] := by
  simp [be16Bytes]

/-- R71: a header read from seven bytes is written as the same seven bytes. -/
theorem mbapBytes_be16 (t1 t0 p1 p0 l1 l0 u : Byte) :
    mbapBytes ⟨be16 t1 t0, be16 p1 p0, be16 l1 l0, u⟩ = [t1, t0, p1, p0, l1, l0, u] := by
  simp [mbapBytes]

/-- R74 to R76: the row that `decodeResponse` names is laid out as the bytes it was read from. -/
theorem exec_decodeResponse (bytes : List Byte) (s : State) :
    exec (decodeResponse bytes) s = receive bytes s := by
  unfold decodeResponse
  split
  next t1 t0 p1 p0 l1 l0 u fc b8 rest =>
    split_ifs with hread hreadExc hwriteExc hwrite
    · simp [rdRspFrame, mbapBytes_be16, hread]
    · simp [rdExcFrame, mbapBytes_be16, hreadExc]
    · simp [wrExcFrame, mbapBytes_be16, hwriteExc]
    · split
      next b9 b10 b11 tail => simp [wrRspFrame, mbapBytes_be16, hwrite]
      next => exact exec_rx _ s
    · exact exec_rx _ s
  next => exact exec_rx bytes s

end Sys2Proof.Machine

open Sys2Proof Sys2Proof.Machine

/-- Settles O40: each row the response channel decodes to receives the bytes it was decoded from. -/
theorem responseBytesAreReceived : Obligations.ResponseBytesAreReceived := by
  intro bytes i s hdecode
  cases hdecode
  exact exec_decodeResponse bytes s

end

/-! ### Reassembly (R44, R81, R156, R165, R166) -/
section
namespace Sys2Proof.Machine

/-- R44: a run of `Rx` chunks is the reception of their bytes, however they are cut. -/
theorem execAll_map_rx (chunks : List (List Byte)) (s : State) :
    execAll (chunks.map Instr.rx) s = receive chunks.flatten s := by
  induction chunks generalizing s with
  | nil => rfl
  | cons chunk chunks ih =>
    rw [List.flatten_cons, receive_append]
    exact congrArg (andThen (receive chunk s)) (funext ih)

/-- R252: room for all of the bytes is room for the first part of them. -/
theorem RoomFor.mono {s : State} {m n : Nat} (h : RoomFor s n) (hmn : m ≤ n) : RoomFor s m :=
  fun c hc => (Nat.add_le_add_left hmn _).trans (h c hc)

theorem RoomFor.hasRoom {s : State} {n : Nat} (h : RoomFor s (n + 1)) : hasRoom s = true :=
  (hasRoom_iff s).mpr fun c hc => by
    have := h c hc
    omega

/-- R252: what room is left once some of the bytes stand in `rxbuf`. -/
theorem RoomFor.append {s : State} {xs : List Byte} {n : Nat} (h : RoomFor s (xs.length + n)) :
    RoomFor { s with rxbuf := s.rxbuf ++ xs } n := fun c hc => by
  have := h c hc
  simp only [List.length_append]
  omega

/-- No complete frame waits for an outstanding request when `rxbuf` is `xs` (R156, R166). -/
def Incomplete (s : State) (xs : List Byte) : Prop :=
  ∀ p t, s.state = .awaitingResponse p t → frameAvailable xs = none

/-- Fewer bytes complete no frame either. -/
theorem frameAvailable_eq_none_of_append {xs ys : List Byte}
    (h : frameAvailable (xs ++ ys) = none) : frameAvailable xs = none := by
  cases hx : frameAvailable xs with
  | none => rfl
  | some size => exact absurd ((frameAvailable_append xs ys size hx).symm.trans h) nofun

theorem Incomplete.of_append {s : State} {xs ys : List Byte} (h : Incomplete s (xs ++ ys)) :
    Incomplete s xs := fun p t hs => frameAvailable_eq_none_of_append (h p t hs)

theorem incomplete_of_idle {s : State} (h : s.state = .idle) (xs : List Byte) : Incomplete s xs :=
  fun _ _ hs => absurd (h.symm.trans hs) nofun

/-- R166: without a complete frame the trial of completion does nothing. -/
theorem tryComplete_of_incomplete {s : State} (h : Incomplete s s.rxbuf) : tryComplete s = s := by
  rcases tryComplete_cases s with ⟨p, t, size, hs, hsome, -⟩ | ⟨e, -⟩
  · exact absurd (hsome.symm.trans (h p t hs)) nofun
  · exact e

/-- R166: with one it completes the outstanding request. -/
theorem tryComplete_of_available {s : State} {p : Pend} {t : Ticks} {size : Nat}
    (hs : s.state = .awaitingResponse p t) (h : frameAvailable s.rxbuf = some size) :
    tryComplete s = complete p size s := by
  simp [tryComplete, hs, h]

/-- R165 (c), (d): bytes that complete no frame are kept, and nothing else happens. -/
theorem receive_of_incomplete (bytes : List Byte) (s : State) (hopen : s.state ≠ .closed)
    (hinc : Incomplete s (s.rxbuf ++ bytes)) (hroom : RoomFor s bytes.length) :
    receive bytes s = .next { s with rxbuf := s.rxbuf ++ bytes } := by
  induction bytes generalizing s with
  | nil => simp
  | cons b bytes ih =>
    have hsplit : s.rxbuf ++ b :: bytes = (s.rxbuf ++ [b]) ++ bytes := by simp
    rw [hsplit] at hinc ⊢
    have hbyte : receiveByte b s = .next { s with rxbuf := s.rxbuf ++ [b] } := by
      rw [receiveByte_of_room b s hopen hroom.hasRoom]
      exact congrArg _ (tryComplete_of_incomplete hinc.of_append)
    have hrest : RoomFor { s with rxbuf := s.rxbuf ++ [b] } bytes.length :=
      RoomFor.append (hroom.mono (by simp [Nat.add_comm]))
    rw [receive_cons, hbyte, andThen_next_left]
    exact ih { s with rxbuf := s.rxbuf ++ [b] } hopen hinc hrest

/-- The state once the outstanding request `p` is resolved by `frame` and `surplus` is left in `rxbuf`
(R166, R211; log 4). -/
def State.resolvedBy (s : State) (p : Pend) (frame surplus : List Byte) : State :=
  { s with
    state := .idle
    rxbuf := surplus
    val := valAfter (answer p frame) s.val
    outputs := s.outputs ++ [.resolve (answer p frame)] }

/-- R166: when `rxbuf` is exactly one frame, that frame is consumed. -/
theorem tryComplete_of_frame {s : State} {p : Pend} {t : Ticks}
    (hs : s.state = .awaitingResponse p t) (hframe : frameAvailable s.rxbuf = some s.rxbuf.length) :
    tryComplete s = s.resolvedBy p s.rxbuf [] := by
  rw [tryComplete_of_available hs hframe, complete_eq, List.take_length, List.drop_length]
  rfl

/-- R156: a proper beginning of a frame is no frame. -/
theorem frameAvailable_of_proper_beginning {xs ys : List Byte} (hne : ys ≠ [])
    (h : frameAvailable (xs ++ ys) = some (xs ++ ys).length) : frameAvailable xs = none := by
  cases hx : frameAvailable xs with
  | none => rfl
  | some size =>
    have hsize : size = (xs ++ ys).length :=
      Option.some.inj ((frameAvailable_append xs ys size hx).symm.trans h)
    have hle : size ≤ xs.length := ((frameAvailable_eq_some xs size).mp hx).2.2
    have hpos : 0 < ys.length := List.length_pos_iff.mpr hne
    rw [List.length_append] at hsize
    omega

/-- R166: the byte that ends a frame resolves the operation with it. -/
theorem receiveByte_last {s : State} {p : Pend} {t : Ticks} {b : Byte}
    (hs : s.state = .awaitingResponse p t) (hroom : hasRoom s = true)
    (hframe : frameAvailable (s.rxbuf ++ [b]) = some (s.rxbuf ++ [b]).length) :
    receiveByte b s = .next (s.resolvedBy p (s.rxbuf ++ [b]) []) := by
  rw [receiveByte_of_room b s (by simp [hs]) hroom]
  exact congrArg _ (tryComplete_of_frame (s := { s with rxbuf := s.rxbuf ++ [b] }) hs hframe)

/-- R165, R166: the rest of a frame, its last byte being the one that completes it. -/
theorem receive_rest_of_frame {s : State} {p : Pend} {t : Ticks} {rest : List Byte}
    (hs : s.state = .awaitingResponse p t) (hne : rest ≠ [])
    (hframe : frameAvailable (s.rxbuf ++ rest) = some (s.rxbuf ++ rest).length)
    (hroom : RoomFor s rest.length) :
    receive rest s = .next (s.resolvedBy p (s.rxbuf ++ rest) []) := by
  obtain ⟨init, b, rfl⟩ := (List.eq_nil_or_concat' rest).resolve_left hne
  rw [← List.append_assoc] at hframe ⊢
  rw [List.length_append] at hroom
  have hinit : receive init s = .next { s with rxbuf := s.rxbuf ++ init } :=
    receive_of_incomplete init s (by simp [hs])
      (fun _ _ _ => frameAvailable_of_proper_beginning (List.cons_ne_nil b []) hframe)
      (hroom.mono (Nat.le_add_right _ _))
  have hlast := receiveByte_last (s := { s with rxbuf := s.rxbuf ++ init }) hs
    (RoomFor.hasRoom (n := 0) hroom.append) hframe
  rw [receive_append, hinit, andThen_next_left, receive_cons, hlast]
  rfl

/-- R81: the surplus behind a frame is kept. -/
theorem receive_surplus {s : State} {p : Pend} {frame surplus : List Byte}
    (hroom : RoomFor s surplus.length) :
    receive surplus (s.resolvedBy p frame []) = .next (s.resolvedBy p frame surplus) :=
  receive_of_incomplete surplus (s.resolvedBy p frame []) nofun (incomplete_of_idle rfl _)
    fun c hc => by
      have := hroom c hc
      simp only [State.resolvedBy, List.length_nil]
      omega

/-- Where an incomplete `rxbuf` and further bytes make up a frame and a surplus, the frame ends in the
further bytes. -/
theorem rest_of_frame {buffered bytes frame surplus : List Byte}
    (hnone : frameAvailable buffered = none) (hframe : frameAvailable frame = some frame.length)
    (heq : buffered ++ bytes = frame ++ surplus) :
    ∃ rest, rest ≠ [] ∧ frame = buffered ++ rest ∧ bytes = rest ++ surplus := by
  have hnot : ∀ ys, buffered ≠ frame ++ ys := by
    rintro ys rfl
    exact absurd ((frameAvailable_append frame ys _ hframe).symm.trans hnone) nofun
  rcases List.append_eq_append_iff.mp heq with ⟨rest, hf, hb⟩ | ⟨ys, hb, -⟩
  · refine ⟨rest, ?_, hf, hb⟩
    rintro rfl
    exact hnot [] (by simpa using hf.symm)
  · exact absurd hb (hnot ys)

end Sys2Proof.Machine

open Sys2Proof Sys2Proof.Machine

/-- Settles O38: the run is the reception of the frame's rest and then of the surplus. -/
theorem reassemblyOfOneFrame : Obligations.ReassemblyOfOneFrame := by
  intro s p t chunks frame surplus hs hnone heq hframe hroom
  obtain ⟨rest, hne, rfl, hbytes⟩ := rest_of_frame hnone hframe heq
  rw [execAll_map_rx]
  rw [hbytes] at hroom ⊢
  rw [List.length_append] at hroom
  rw [receive_append, receive_rest_of_frame hs hne hframe (hroom.mono (Nat.le_add_right _ _)),
    andThen_next_left]
  exact receive_surplus (hroom.mono (Nat.le_add_left _ _))

end

/-! # Proofs about the encoding: frames, script lines and responses -/

/-! ### The register serializer undone (R110 to R112) -/
section
namespace Sys2Proof.Machine

@[simp] theorem deserialize_zero (buffer : List Byte) (offset : Nat) :
    deserialize buffer offset 0 = [] := rfl

/-- R111: an offset behind the first bytes is an offset in what follows them. -/
theorem deserialize_append_right (pre buffer : List Byte) (offset n : Nat) :
    deserialize (pre ++ buffer) (pre.length + offset) n = deserialize buffer offset n := by
  simp only [deserialize, deserializeFrom, Nat.add_assoc, byteAt_append_right]

/-- R111: the first register stands in the first two bytes. -/
theorem deserialize_cons_cons (h l : Byte) (bs : List Byte) (n : Nat) :
    deserialize (h :: l :: bs) 0 (n + 1) = be16 h l :: deserialize bs 0 n := by
  rw [← deserialize_append_right [h, l] bs 0 n]
  exact deserializeFrom_succ _ 0 n

/-- R112: registers written are read back, whatever follows them. -/
theorem deserialize_serialize (values : List U16) (tail : List Byte) :
    deserialize (serialize values ++ tail) 0 values.length = values := by
  induction values with
  | nil => rfl
  | cons v vs ih => simp [deserialize_cons_cons, ih]

/-- R112: registers read from all of a buffer are written back as that buffer. -/
theorem serialize_deserialize (n : Nat) (buffer : List Byte) (hlen : buffer.length = 2 * n) :
    serialize (deserialize buffer 0 n) = buffer := by
  induction n generalizing buffer with
  | zero => simpa using (List.length_eq_zero_iff.mp hlen).symm
  | succ n ih =>
    obtain _ | ⟨h, _ | ⟨l, bs⟩⟩ := buffer
    · simp at hlen
    · simp at hlen; omega
    · have htail : bs.length = 2 * n := by simp at hlen; omega
      simp [deserialize_cons_cons, ih bs htail]

end Sys2Proof.Machine
end

/-! ### Request frames (R71 to R73, R78, R79) -/
section
namespace Sys2Proof
open Machine

/-- R72: the frame of a read decodes to its row. -/
theorem decodeRequest_rdReqFrame (tid : U16) (unitId : Byte) (addr count : U16) :
    decodeRequest (rdReqFrame tid unitId addr count) = .ok (.rdReq tid unitId addr count) := by
  simp [rdReqFrame, be16Bytes, decodeRequest]

/-- R73, R78, R79: the fields of a write's body agree with each other. -/
theorem decodeWrReqBody_serialize (tid : U16) (unitId : Byte) (addr : U16) (values : List U16)
    (h : values.length ≤ 127) :
    decodeWrReqBody tid unitId addr (BitVec.ofNat 16 values.length)
        (BitVec.ofNat 16 (Config.wrReqLengthField values.length))
        (BitVec.ofNat 8 (2 * values.length) :: serialize values) =
      .ok (.wrReq tid unitId addr values) := by
  have hcount : (BitVec.ofNat 16 values.length).toNat = values.length := by
    rw [BitVec.toNat_ofNat]; omega
  have hlength : (BitVec.ofNat 16 (Config.wrReqLengthField values.length)).toNat =
      Config.wrReqLengthField values.length := by
    rw [BitVec.toNat_ofNat]; simp only [Config.wrReqLengthField]; omega
  have hbytes : (BitVec.ofNat 8 (2 * values.length)).toNat = 2 * values.length := by
    rw [BitVec.toNat_ofNat]; omega
  have hvalues : deserialize (serialize values) 0 values.length = values := by
    simpa using deserialize_serialize values []
  simp [decodeWrReqBody, hcount, hlength, hbytes, hvalues]

/-- R73: the frame of a write that its byte count can express decodes to its row. -/
theorem decodeRequest_wrReqFrame (tid : U16) (unitId : Byte) (addr : U16) (values : List U16)
    (h : values.length ≤ 127) :
    decodeRequest (wrReqFrame tid unitId addr values) = .ok (.wrReq tid unitId addr values) := by
  rw [← decodeWrReqBody_serialize tid unitId addr values h]
  simp [wrReqFrame, be16Bytes, decodeRequest]

/-- R73, R78, R79: a body the decoder takes has the fields that belong to its values. -/
theorem decodeWrReqBody_eq_ok {tid : U16} {unitId : Byte} {addr count length : U16}
    {body : List Byte} {i : Instr} (h : decodeWrReqBody tid unitId addr count length body = .ok i) :
    ∃ values : List U16, values.length ≤ 127 ∧ i = .wrReq tid unitId addr values ∧
      count = BitVec.ofNat 16 values.length ∧
      length = BitVec.ofNat 16 (Config.wrReqLengthField values.length) ∧
      body = BitVec.ofNat 8 (2 * values.length) :: serialize values := by
  unfold decodeWrReqBody at h
  split at h
  · cases h
  next bc vs =>
    split_ifs at h with hlength hbytes hsize
    cases h
    have hbc := bc.isLt
    have hn : (deserialize vs 0 count.toNat).length = count.toNat := deserializeFrom_length _ _ _
    refine ⟨deserialize vs 0 count.toNat, by omega, rfl, ?_, ?_, ?_⟩
    · rw [hn, BitVec.ofNat_toNat, BitVec.setWidth_eq]
    · rw [hn, ← not_not.mp hlength, BitVec.ofNat_toNat, BitVec.setWidth_eq]
    · rw [hn, ← not_not.mp hbytes, BitVec.ofNat_toNat, BitVec.setWidth_eq,
        serialize_deserialize _ _ (not_not.mp hsize)]

/-- R72, R73: what the request decoder takes is the frame of a read, or of a write of at most 127
values. -/
theorem decodeRequest_eq_ok {bytes : List Byte} {i : Instr} (h : decodeRequest bytes = .ok i) :
    (∃ tid unitId addr count, i = .rdReq tid unitId addr count ∧
      bytes = rdReqFrame tid unitId addr count) ∨
    (∃ tid unitId addr values, values.length ≤ 127 ∧ i = .wrReq tid unitId addr values ∧
      bytes = wrReqFrame tid unitId addr values) := by
  unfold decodeRequest at h
  split at h
  next t1 t0 p1 p0 l1 l0 u fc a1 a0 c1 c0 rest =>
    split_ifs at h with hprotocol hread hlength hrest hwrite
    · cases h
      refine .inl ⟨be16 t1 t0, u, be16 a1 a0, be16 c1 c0, rfl, ?_⟩
      rw [rdReqFrame, ← not_not.mp hprotocol, ← not_not.mp hlength]
      simp [hread, not_not.mp hrest]
    · obtain ⟨values, hmax, rfl, hcount, hlength, rfl⟩ := decodeWrReqBody_eq_ok h
      refine .inr ⟨be16 t1 t0, u, be16 a1 a0, values, hmax, rfl, ?_⟩
      rw [wrReqFrame, ← not_not.mp hprotocol, ← hlength, ← hcount]
      simp [hwrite]
  · cases h

end Sys2Proof

open Sys2Proof Sys2Proof.Machine

/-- Settles O9: what the request decoder takes is a frame of the encoder, and the frame fixes the row. -/
theorem requestFramesHaveOneReading : Obligations.RequestFramesHaveOneReading := by
  intro bytes i hdecode
  rcases decodeRequest_eq_ok hdecode with
    ⟨tid, unitId, addr, count, rfl, rfl⟩ | ⟨tid, unitId, addr, values, -, rfl, rfl⟩
  · rfl
  · rfl

end

/-! ### Response frames decode to their rows (R74 to R76) -/
section
namespace Sys2Proof
open Machine

/-- R6: the two exception codes as plain bytes, so that they compare with the normal ones. -/
theorem fcReadExc_eq : Config.fcReadExc = 0x83 := rfl

theorem fcWriteExc_eq : Config.fcWriteExc = 0x90 := rfl

theorem decodeResponse_rdRspFrame (h : Mbap) (byteCount : Byte) (rest : List Byte) :
    decodeResponse (rdRspFrame h byteCount rest) = .rdRsp h byteCount rest := by
  simp [rdRspFrame, mbapBytes, be16Bytes, decodeResponse]

theorem decodeResponse_rdExcFrame (h : Mbap) (code : Byte) (rest : List Byte) :
    decodeResponse (rdExcFrame h code rest) = .rdExc h code rest := by
  simp [rdExcFrame, mbapBytes, be16Bytes, decodeResponse, fcReadExc_eq]

theorem decodeResponse_wrRspFrame (h : Mbap) (addr count : U16) (rest : List Byte) :
    decodeResponse (wrRspFrame h addr count rest) = .wrRsp h addr count rest := by
  simp [wrRspFrame, mbapBytes, be16Bytes, decodeResponse, fcReadExc_eq, fcWriteExc_eq]

theorem decodeResponse_wrExcFrame (h : Mbap) (code : Byte) (rest : List Byte) :
    decodeResponse (wrExcFrame h code rest) = .wrExc h code rest := by
  simp [wrExcFrame, mbapBytes, be16Bytes, decodeResponse, fcReadExc_eq, fcWriteExc_eq]

end Sys2Proof
end

/-! ### Script lines and calls (R100): what the encoder writes reads back -/
section
namespace Sys2Proof
open Machine

/-- A text at which a word before it ends: the end of the line, a space or a mark. -/
def endsWord : List Byte → Bool
  | [] => true
  | b :: _ => !isWordChar b

/-- Where a word ends it is flushed, and the rest is read afresh. -/
theorem lexFrom_of_endsWord (acc rest : List Byte) (h : endsWord rest = true) :
    lexFrom acc rest = flushWord acc ++ lexFrom [] rest := by
  cases rest with
  | nil => simp [lexFrom, flushWord]
  | cons b bs =>
    by_cases hspace : b = chSpace
    · simp [hspace, lexFrom_space, flushWord]
    · have hmark : isMark b = true := by simpa [endsWord, isWordChar, hspace] using h
      simp [lexFrom_mark _ _ _ hmark hspace, flushWord]

@[simp] theorem lexFrom_nil : lexFrom [] [] = [] := rfl

/-- A word and its end become one piece. -/
theorem lexFrom_word_endsWord (w rest : List Byte) (hne : w ≠ []) (hword : w.all isWordChar = true)
    (h : endsWord rest = true) : lexFrom [] (w ++ rest) = .word w :: lexFrom [] rest := by
  rw [lexFrom_word w rest [] hword, List.nil_append, lexFrom_of_endsWord w rest h,
    flushWord_of_ne_nil w hne]
  rfl

@[simp] theorem lexFrom_numberText (least n : Nat) (rest : List Byte) (h : endsWord rest = true) :
    lexFrom [] (numberText least n ++ rest) = .word (numberText least n) :: lexFrom [] rest :=
  lexFrom_word_endsWord _ _ (numberText_ne_nil least n) (numberText_all_isWordChar least n) h

@[simp] theorem lexFrom_numberText_last (least n : Nat) :
    lexFrom [] (numberText least n) = [.word (numberText least n)] := by
  simpa using lexFrom_numberText least n [] rfl

@[simp] theorem lexFrom_byteText (b : Byte) (rest : List Byte) (h : endsWord rest = true) :
    lexFrom [] (byteText b ++ rest) = .word (byteText b) :: lexFrom [] rest :=
  lexFrom_word_endsWord _ _ (List.ne_nil_of_length_pos (by simp [byteText]))
    (hexDigits_all_isWordChar 2 b.toNat) h

@[simp] theorem lexFrom_nil_space (rest : List Byte) :
    lexFrom [] (chSpace :: rest) = lexFrom [] rest := lexFrom_space [] rest

@[simp] theorem lexFrom_nil_comma (rest : List Byte) :
    lexFrom [] (chComma :: rest) = .mark chComma :: lexFrom [] rest := rfl

@[simp] theorem lexFrom_nil_open (rest : List Byte) :
    lexFrom [] (chOpen :: rest) = .mark chOpen :: lexFrom [] rest := rfl

@[simp] theorem lexFrom_nil_close (rest : List Byte) :
    lexFrom [] (chClose :: rest) = .mark chClose :: lexFrom [] rest := rfl

@[simp] theorem lexFrom_nil_left (rest : List Byte) :
    lexFrom [] (chLeft :: rest) = .mark chLeft :: lexFrom [] rest := rfl

@[simp] theorem lexFrom_nil_right (rest : List Byte) :
    lexFrom [] (chRight :: rest) = .mark chRight :: lexFrom [] rest := rfl

theorem endsWord_of_break (b : Byte) (rest : List Byte) (h : isWordChar b = false) :
    endsWord (b :: rest) = true := by
  simp [endsWord, h]

@[simp] theorem endsWord_space (rest : List Byte) : endsWord (chSpace :: rest) = true :=
  endsWord_of_break _ _ (by decide)

@[simp] theorem endsWord_comma (rest : List Byte) : endsWord (chComma :: rest) = true :=
  endsWord_of_break _ _ (by decide)

@[simp] theorem endsWord_left (rest : List Byte) : endsWord (chLeft :: rest) = true :=
  endsWord_of_break _ _ (by decide)

@[simp] theorem endsWord_right (rest : List Byte) : endsWord (chRight :: rest) = true :=
  endsWord_of_break _ _ (by decide)

/-- What follows a value in a list begins with a mark. -/
@[simp] theorem endsWord_moreValuesText (vs : List Nat) (rest : List Byte) :
    endsWord (moreValuesText vs ++ rest) = true := by
  cases vs <;> rfl

/-- Bytes, each after a space, end a word before them when what follows does. -/
@[simp] theorem endsWord_byteListText (bs rest : List Byte) (h : endsWord rest = true) :
    endsWord (byteListText bs ++ rest) = true := by
  cases bs with
  | nil => exact h
  | cons b bs => rfl

/-- R100: the values after the first, with their `]`, read back. -/
@[simp] theorem valuesFrom_moreValuesText (vs : List Nat) (rest : List Byte) :
    valuesFrom false (lexFrom [] (moreValuesText vs ++ rest)) = .ok (vs, lexFrom [] rest) := by
  induction vs with
  | nil => simp [moreValuesText, valuesFrom]
  | cons v vs ih =>
    have hcomma : chComma ≠ chClose := by decide
    simp [moreValuesText, valuesFrom, hcomma, ih]

/-- R100: a value list reads back, and what follows it is left. -/
@[simp] theorem valueList_valueListText (vs : List Nat) (rest : List Byte) :
    valueList (lexFrom [] (valueListText vs ++ rest)) = .ok (vs, lexFrom [] rest) := by
  cases vs with
  | nil => simp [valueListText, valueList, valuesAfterOpen]
  | cons v vs => simp [valueListText, valueList, valuesAfterOpen, valuesFrom]

@[simp] theorem valueList_valueListText_last (vs : List Nat) :
    valueList (lexFrom [] (valueListText vs)) = .ok (vs, []) := by
  simpa using valueList_valueListText vs []

/-- R93, R100: the bytes of a list read back, whatever is left behind them. -/
theorem byteList_byteListText (bs rest : List Byte) (hrest : endsWord rest = true)
    (hnil : byteList (lexFrom [] rest) = .ok ([], lexFrom [] rest)) :
    byteList (lexFrom [] (byteListText bs ++ rest)) = .ok (bs, lexFrom [] rest) := by
  induction bs with
  | nil => simpa [byteListText] using hnil
  | cons b bs ih => simp [byteListText, byteList, hrest, hexByte_byteText, ih]

end Sys2Proof
end

/-! ### Every script line of the encoder reads back -/
section
namespace Sys2Proof
open Machine

/-- R100: the keyword, or the function's name, is the first piece of a line and selects its parser. -/
theorem decodeLine_keyword {k rest : List Byte} {parse : List Tok → Except DecodeError Instr}
    (hparse : ∀ ops, parseLine (.word k :: ops) = parse ops) (hne : k ≠ [])
    (hword : k.all isWordChar = true) (hrest : endsWord rest = true) :
    decodeLine (k ++ rest) = parse (lexFrom [] rest) := by
  rw [decodeLine, lexFrom_word_endsWord k rest hne hword hrest, hparse]

/-- A line that is its keyword alone. -/
theorem decodeLine_bare_keyword {k : List Byte} {i : Instr}
    (hparse : ∀ ops, parseLine (.word k :: ops) = parseNone i ops) (hne : k ≠ [])
    (hword : k.all isWordChar = true) : decodeLine k = .ok i := by
  simpa [parseNone] using decodeLine_keyword (rest := []) hparse hne hword rfl

/-- `RD a, c`. -/
theorem decode_encode_submitRead (addr count : Nat) :
    decode (encode (.submitRead addr count)) = .ok (.submitRead addr count) := by
  have hline := decodeLine_keyword (k := kwRead) (parse := parseRead) (fun _ => rfl) (by decide)
    (by decide)
    (endsWord_space (numberText 4 addr ++ [chComma, chSpace] ++ numberText 4 count))
  simpa [parseRead, encode, decode, scriptInput] using hline

/-- `WR a, [v0, v1, ...]`. -/
theorem decode_encode_submitWrite (addr : Nat) (values : List Nat) :
    decode (encode (.submitWrite addr values)) = .ok (.submitWrite addr values) := by
  have hline := decodeLine_keyword (k := kwWrite) (parse := parseWrite) (fun _ => rfl) (by decide)
    (by decide)
    (endsWord_space (numberText 4 addr ++ [chComma, chSpace] ++ valueListText values))
  simpa [parseWrite, encode, decode, scriptInput] using hline

/-- `RX b0 b1 ...`. -/
theorem decode_encode_rx (bytes : List Byte) : decode (encode (.rx bytes)) = .ok (.rx bytes) := by
  have hline := decodeLine_keyword (k := kwRx) (parse := parseRx) (fun _ => rfl) (by decide)
    (by decide) (endsWord_byteListText bytes [] rfl)
  have hbytes := byteList_byteListText bytes [] rfl rfl
  rw [List.append_nil] at hline hbytes
  simpa [parseRx, hbytes, encode, decode, scriptInput] using hline

/-- `CFGU u`. -/
theorem decode_encode_cfgUnit (u : Nat) : decode (encode (.cfgUnit u)) = .ok (.cfgUnit u) := by
  have hline := decodeLine_keyword (k := kwCfgUnit) (parse := parseCfgUnit) (fun _ => rfl)
    (by decide) (by decide) (endsWord_space (numberText 2 u))
  simpa [parseCfgUnit, encode, decode, scriptInput] using hline

/-- `CFGT t`. -/
theorem decode_encode_cfgTimeout (t : Nat) :
    decode (encode (.cfgTimeout t)) = .ok (.cfgTimeout t) := by
  have hline := decodeLine_keyword (k := kwCfgTimeout) (parse := parseCfgTimeout) (fun _ => rfl)
    (by decide) (by decide) (endsWord_space (numberText 8 t))
  simpa [parseCfgTimeout, encode, decode, scriptInput] using hline

/-- `serialize([v0, v1, ...])`. -/
theorem decode_encode_serialize (values : List Nat) :
    decode (encode (.serialize values)) = .ok (.serialize values) := by
  have hline := decodeLine_keyword (k := kwSerialize) (parse := parseSerialize) (fun _ => rfl)
    (by decide) (by decide) (endsWord_left (valueListText values ++ [chRight]))
  simpa [parseSerialize, encode, decode, scriptInput] using hline

/-- `deserialize(b0 b1 ..., offset, n)`. -/
theorem decode_encode_deserialize (buffer : List Byte) (offset n : Nat) :
    decode (encode (.deserialize buffer offset n)) = .ok (.deserialize buffer offset n) := by
  have hline := decodeLine_keyword (k := kwDeserialize) (parse := parseDeserialize) (fun _ => rfl)
    (by decide) (by decide) (endsWord_left (byteListText buffer ++ [chComma, chSpace] ++
      numberText 8 offset ++ [chComma, chSpace] ++ numberText 8 n ++ [chRight]))
  have hbytes := byteList_byteListText buffer
    (chComma :: chSpace :: (numberText 8 offset ++ chComma :: chSpace :: (numberText 8 n ++ [chRight])))
    rfl rfl
  simpa [parseDeserialize, parseDeserializeEnd, hbytes, encode, decode, scriptInput] using hline

end Sys2Proof

open Sys2Proof Sys2Proof.Machine

/-- Settles O8, row by row: the frames by their layouts, the script lines by their pieces. -/
theorem everyInstructionDecodesFromItsEncoding :
    Obligations.EveryInstructionDecodesFromItsEncoding := by
  intro i hwf
  cases i with
  | rdReq tid unitId addr count => exact decodeRequest_rdReqFrame tid unitId addr count
  | wrReq tid unitId addr values =>
    exact decodeRequest_wrReqFrame tid unitId addr values (by simpa [Instr.wellFormed] using hwf)
  | rdRsp h byteCount rest => exact congrArg _ (decodeResponse_rdRspFrame h byteCount rest)
  | rdExc h code rest => exact congrArg _ (decodeResponse_rdExcFrame h code rest)
  | wrRsp h addr count rest => exact congrArg _ (decodeResponse_wrRspFrame h addr count rest)
  | wrExc h code rest => exact congrArg _ (decodeResponse_wrExcFrame h code rest)
  | submitRead addr count => exact decode_encode_submitRead addr count
  | submitWrite addr values => exact decode_encode_submitWrite addr values
  | rx bytes => exact decode_encode_rx bytes
  | tick => exact decodeLine_bare_keyword (k := kwTick) (fun _ => rfl) (by decide) (by decide)
  | transportError =>
    exact decodeLine_bare_keyword (k := kwTransportError) (fun _ => rfl) (by decide) (by decide)
  | close => exact decodeLine_bare_keyword (k := kwClose) (fun _ => rfl) (by decide) (by decide)
  | cfgUnit u => exact decode_encode_cfgUnit u
  | cfgTimeout t => exact decode_encode_cfgTimeout t
  | reset => exact decodeLine_bare_keyword (k := kwReset) (fun _ => rfl) (by decide) (by decide)
  | serialize values => exact decode_encode_serialize values
  | deserialize buffer offset n => exact decode_encode_deserialize buffer offset n

end

/-! ### What the decoder accepts is well-formed -/
section
namespace Sys2Proof
open Machine

theorem parseCfgUnit_eq_ok {ops : List Tok} {i : Instr} (h : parseCfgUnit ops = .ok i) :
    ∃ u, i = .cfgUnit u := by
  unfold parseCfgUnit at h
  repeat' split at h
  all_goals cases h
  exact ⟨_, rfl⟩

theorem parseCfgTimeout_eq_ok {ops : List Tok} {i : Instr} (h : parseCfgTimeout ops = .ok i) :
    ∃ t, i = .cfgTimeout t := by
  unfold parseCfgTimeout at h
  repeat' split at h
  all_goals cases h
  exact ⟨_, rfl⟩

theorem parseRead_eq_ok {ops : List Tok} {i : Instr} (h : parseRead ops = .ok i) :
    ∃ addr count, i = .submitRead addr count := by
  unfold parseRead at h
  repeat' split at h
  all_goals cases h
  exact ⟨_, _, rfl⟩

theorem parseWrite_eq_ok {ops : List Tok} {i : Instr} (h : parseWrite ops = .ok i) :
    ∃ addr values, i = .submitWrite addr values := by
  unfold parseWrite at h
  repeat' split at h
  all_goals cases h
  exact ⟨_, _, rfl⟩

theorem parseRx_eq_ok {ops : List Tok} {i : Instr} (h : parseRx ops = .ok i) :
    ∃ bytes, i = .rx bytes := by
  unfold parseRx at h
  split at h <;> cases h
  exact ⟨_, rfl⟩

theorem parseSerialize_eq_ok {ops : List Tok} {i : Instr} (h : parseSerialize ops = .ok i) :
    ∃ values, i = .serialize values := by
  unfold parseSerialize at h
  repeat' split at h
  all_goals cases h
  exact ⟨_, rfl⟩

theorem parseDeserializeEnd_eq_ok {buffer : List Byte} {ops : List Tok} {i : Instr}
    (h : parseDeserializeEnd buffer ops = .ok i) : ∃ offset n, i = .deserialize buffer offset n := by
  unfold parseDeserializeEnd at h
  repeat' split at h
  all_goals cases h
  exact ⟨_, _, rfl⟩

theorem parseDeserialize_eq_ok {ops : List Tok} {i : Instr} (h : parseDeserialize ops = .ok i) :
    ∃ buffer offset n, i = .deserialize buffer offset n := by
  unfold parseDeserialize at h
  split at h
  · split at h
    · split at h
      next buffer rest _ => exact ⟨buffer, parseDeserializeEnd_eq_ok h⟩
      next => cases h
    · cases h
  · cases h

/-- If the parser's answer is an instruction, it is well-formed. -/
def GivesWellFormed (r : Except DecodeError Instr) : Prop := ∀ i, r = .ok i → i.wellFormed = true

theorem GivesWellFormed.ite {c : Prop} [Decidable c] {r r' : Except DecodeError Instr}
    (h : GivesWellFormed r) (h' : GivesWellFormed r') : GivesWellFormed (if c then r else r') := by
  split
  · exact h
  · exact h'

theorem givesWellFormed_error (e : DecodeError) : GivesWellFormed (.error e) := nofun

theorem givesWellFormed_parseNone {i : Instr} (ops : List Tok) (h : i.wellFormed = true) :
    GivesWellFormed (parseNone i ops) :=
  .ite (by rintro _ ⟨⟩; exact h) (givesWellFormed_error _)

/-- R100: a script line gives an event or a call of a register function, and those fit their line
whatever their operands are. -/
theorem givesWellFormed_parseLine (ts : List Tok) : GivesWellFormed (parseLine ts) := by
  unfold parseLine
  split
  · exact givesWellFormed_error _
  · exact givesWellFormed_error _
  next k ops =>
    refine .ite (givesWellFormed_parseNone ops rfl) <| .ite ?cfgUnit <| .ite ?cfgTimeout <|
      .ite ?read <| .ite ?write <| .ite ?rx <| .ite (givesWellFormed_parseNone ops rfl) <|
      .ite (givesWellFormed_parseNone ops rfl) <| .ite (givesWellFormed_parseNone ops rfl) <|
      .ite ?serialize <| .ite ?deserialize (givesWellFormed_error _)
    case cfgUnit => intro i h; obtain ⟨u, rfl⟩ := parseCfgUnit_eq_ok h; rfl
    case cfgTimeout => intro i h; obtain ⟨t, rfl⟩ := parseCfgTimeout_eq_ok h; rfl
    case read => intro i h; obtain ⟨addr, count, rfl⟩ := parseRead_eq_ok h; rfl
    case write => intro i h; obtain ⟨addr, values, rfl⟩ := parseWrite_eq_ok h; rfl
    case rx => intro i h; obtain ⟨bytes, rfl⟩ := parseRx_eq_ok h; rfl
    case serialize => intro i h; obtain ⟨values, rfl⟩ := parseSerialize_eq_ok h; rfl
    case deserialize => intro i h; obtain ⟨buffer, offset, n, rfl⟩ := parseDeserialize_eq_ok h; rfl

/-- R73: a request the decoder takes has at most the 127 values that a byte count can express. -/
theorem decodeRequest_wellFormed {bytes : List Byte} {i : Instr} (h : decodeRequest bytes = .ok i) :
    i.wellFormed = true := by
  rcases decodeRequest_eq_ok h with
    ⟨tid, unitId, addr, count, rfl, -⟩ | ⟨tid, unitId, addr, values, hmax, rfl, -⟩
  · rfl
  · simpa [Instr.wellFormed] using hmax

/-- R40, R74 to R76: bytes from the device are one of the four rows or an `Rx`. -/
theorem decodeResponse_wellFormed (bytes : List Byte) : (decodeResponse bytes).wellFormed = true := by
  unfold decodeResponse
  repeat' split
  all_goals rfl

end Sys2Proof

open Sys2Proof Sys2Proof.Machine

/-- Settles O7, channel by channel. -/
theorem decodedInstructionsAreWellFormed : Obligations.DecodedInstructionsAreWellFormed := by
  rintro ⟨channel, bytes⟩ i hdecode
  cases channel with
  | script => exact givesWellFormed_parseLine _ i hdecode
  | request => exact decodeRequest_wellFormed hdecode
  | response =>
    cases hdecode
    exact decodeResponse_wellFormed bytes

/-- Settles O6, each clause by running the decoder on its bytes. -/
theorem sampleEncodingsDecode : Obligations.SampleEncodingsDecode := by
  refine ⟨?_, ?_, ?_, ?_, ?_, ?_⟩ <;> decide

end

/-! ### What of a response is examined (R50, R88, R142) -/
section
namespace Sys2Proof.Machine

/-- R142: a read decoder's answer depends on the bytes from the function code to the buffer's end. -/
theorem decodeReadFrom_congr {len : Nat} {rd rd' : Nat → Byte}
    (h : ∀ i, 7 ≤ i → i < len → rd i = rd' i) (n : Nat) :
    decodeReadFrom len rd n = decodeReadFrom len rd' n := by
  by_cases hshort : len < Config.excRspMin
  · simp [decodeReadFrom, hshort]
  have hlen : 9 ≤ len := not_lt.mp hshort
  simp only [decodeReadFrom, h 7 (by omega) (by omega), h 8 (by omega) (by omega)]
  by_cases hmin : len < Config.rdRspMin n
  · simp only [if_pos hmin]
  · have hlen' : 9 + 2 * n ≤ len := not_lt.mp hmin
    rw [deserializeFrom_congr rd rd' 9 n fun i h9 hi => h i (by omega) (by omega)]

/-- R142: a write decoder's answer depends on the bytes from the function code to the buffer's end. -/
theorem decodeWriteFrom_congr {len : Nat} {rd rd' : Nat → Byte}
    (h : ∀ i, 7 ≤ i → i < len → rd i = rd' i) (addr count : U16) :
    decodeWriteFrom len rd addr count = decodeWriteFrom len rd' addr count := by
  by_cases hshort : len < Config.excRspMin
  · simp [decodeWriteFrom, hshort]
  have hlen : 9 ≤ len := not_lt.mp hshort
  simp only [decodeWriteFrom, h 7 (by omega) (by omega), h 8 (by omega) (by omega)]
  by_cases hmin : len < Config.wrRspMin
  · simp only [if_pos hmin]
  · have hlen' : 12 ≤ len := not_lt.mp hmin
    rw [h 9 (by omega) (by omega), h 10 (by omega) (by omega), h 11 (by omega) (by omega)]

/-- R156: framing reads the length field alone. -/
theorem frameAvailable_congr {xs ys : List Byte} (hlen : xs.length = ys.length)
    (h4 : byteAt xs 4 = byteAt ys 4) (h5 : byteAt xs 5 = byteAt ys 5) :
    frameAvailable xs = frameAvailable ys := by
  simp only [frameAvailable, hlen, h4, h5]

/-- R157, R166: a frame's result depends on its transaction id and on what follows its header. -/
theorem answer_congr {xs ys : List Byte} (hlen : xs.length = ys.length)
    (h0 : byteAt xs 0 = byteAt ys 0) (h1 : byteAt xs 1 = byteAt ys 1)
    (hbody : ∀ i, 7 ≤ i → byteAt xs i = byteAt ys i) (p : Pend) : answer p xs = answer p ys := by
  have hread := decodeReadFrom_congr (len := ys.length) fun i h7 _ => hbody i h7
  have hwrite := decodeWriteFrom_congr (len := ys.length) fun i h7 _ => hbody i h7
  have hcorrelate : correlate xs p = correlate ys p := by simp only [correlate, h0, h1]
  rw [answer, answer, hcorrelate]
  cases p.kind <;>
    simp only [decodeReadResponse, decodeWriteResponse, hlen, hread, hwrite]

end Sys2Proof.Machine

open Sys2Proof Sys2Proof.Machine

/-- Settles O32: offsets 2, 3 and 6 are neither the length field, nor the transaction id, nor the body. -/
theorem unexaminedHeaderFields : Obligations.UnexaminedHeaderFields := by
  intro xs ys hlen hsame
  refine ⟨frameAvailable_congr hlen ?_ ?_, answer_congr hlen ?_ ?_ fun i h7 => ?_⟩
  all_goals exact hsame _ (by omega) (by omega) (by omega)

end

/-! ### The layouts of the response frames, and what the decoders answer to them (R74 to R76) -/
section
namespace Sys2Proof.Machine

@[simp] theorem mbapBytes_length (h : Mbap) : (mbapBytes h).length = 7 := rfl

theorem rdRspFrame_length (h : Mbap) (byteCount : Byte) (rest : List Byte) :
    (rdRspFrame h byteCount rest).length = 9 + rest.length := by
  simp [rdRspFrame]; omega

theorem rdExcFrame_length (h : Mbap) (code : Byte) (rest : List Byte) :
    (rdExcFrame h code rest).length = 9 + rest.length := by
  simp [rdExcFrame]; omega

theorem wrRspFrame_length (h : Mbap) (addr count : U16) (rest : List Byte) :
    (wrRspFrame h addr count rest).length = 12 + rest.length := by
  simp [wrRspFrame]; omega

theorem wrExcFrame_length (h : Mbap) (code : Byte) (rest : List Byte) :
    (wrExcFrame h code rest).length = 9 + rest.length := by
  simp [wrExcFrame]; omega

/-- R132: the normal response to a read, with enough data, gives the registers it carries. -/
theorem decodeReadResponse_rdRspFrame (h : Mbap) (byteCount : Byte) (rest : List Byte) (n : Nat)
    (hcount : byteCount.toNat = 2 * n) (hdata : 2 * n ≤ rest.length) :
    decodeReadResponse (rdRspFrame h byteCount rest) n = .ok (deserialize rest 0 n) := by
  have h7 : byteAt (rdRspFrame h byteCount rest) 7 = Config.fcRead := rfl
  have h8 : byteAt (rdRspFrame h byteCount rest) 8 = byteCount := rfl
  have hvalues : deserializeFrom (byteAt (rdRspFrame h byteCount rest)) 9 n = deserialize rest 0 n :=
    deserialize_append_right (mbapBytes h ++ [Config.fcRead, byteCount]) rest 0 n
  have hlong : ¬9 + rest.length < Config.excRspMin := Nat.not_lt.mpr (Nat.le_add_right _ _)
  have hmin : ¬9 + rest.length < Config.rdRspMin n := Nat.not_lt.mpr (Nat.add_le_add_left hdata _)
  have hfc : Config.fcRead ≠ Config.fcReadExc := by decide
  rw [decodeReadResponse, decodeReadFrom, rdRspFrame_length, h7, h8, hvalues, if_neg hlong,
    if_neg hfc, if_neg hmin, if_neg (not_not.mpr rfl), if_neg (not_not.mpr hcount)]

/-- R131: an exception response to a read gives its code. -/
theorem decodeReadResponse_rdExcFrame (h : Mbap) (code : Byte) (rest : List Byte) (n : Nat) :
    decodeReadResponse (rdExcFrame h code rest) n = .error (.deviceException code) := by
  have h7 : byteAt (rdExcFrame h code rest) 7 = Config.fcReadExc := rfl
  have hlong : ¬9 + rest.length < Config.excRspMin := Nat.not_lt.mpr (Nat.le_add_right _ _)
  rw [decodeReadResponse, decodeReadFrom, rdExcFrame_length, if_neg hlong, if_pos h7]
  rfl

/-- R138: the normal response to a write confirms it exactly when it echoes address and count. -/
theorem decodeWriteResponse_wrRspFrame (h : Mbap) (addr' count' : U16) (rest : List Byte)
    (addr count : U16) :
    decodeWriteResponse (wrRspFrame h addr' count' rest) addr count =
      if addr' = addr ∧ count' = count then .ok () else .error .protocolError := by
  have h7 : byteAt (wrRspFrame h addr' count' rest) 7 = Config.fcWrite := rfl
  have haddr : be16 (byteAt (wrRspFrame h addr' count' rest) 8)
      (byteAt (wrRspFrame h addr' count' rest) 9) = addr' := be16_hi8_lo8 addr'
  have hcount : be16 (byteAt (wrRspFrame h addr' count' rest) 10)
      (byteAt (wrRspFrame h addr' count' rest) 11) = count' := be16_hi8_lo8 count'
  have hlong : ¬12 + rest.length < Config.excRspMin := by simp only [Config.excRspMin]; omega
  have hmin : ¬12 + rest.length < Config.wrRspMin := Nat.not_lt.mpr (Nat.le_add_right _ _)
  have hfc : Config.fcWrite ≠ Config.fcWriteExc := by decide
  rw [decodeWriteResponse, decodeWriteFrom, wrRspFrame_length, h7, haddr, hcount, if_neg hlong,
    if_neg hfc, if_neg hmin, if_neg (not_not.mpr rfl)]
  by_cases ha : addr' = addr
  · by_cases hc : count' = count <;> simp [ha, hc]
  · simp [ha]

/-- R137: an exception response to a write gives its code. -/
theorem decodeWriteResponse_wrExcFrame (h : Mbap) (code : Byte) (rest : List Byte)
    (addr count : U16) :
    decodeWriteResponse (wrExcFrame h code rest) addr count = .error (.deviceException code) := by
  have h7 : byteAt (wrExcFrame h code rest) 7 = Config.fcWriteExc := rfl
  have hlong : ¬9 + rest.length < Config.excRspMin := Nat.not_lt.mpr (Nat.le_add_right _ _)
  rw [decodeWriteResponse, decodeWriteFrom, wrExcFrame_length, if_neg hlong, if_pos h7]
  rfl

end Sys2Proof.Machine
end

/-! ### A whole response frame arrives (R165, R166) -/
section
namespace Sys2Proof.Machine

/-- `frame` has the header `h`, and its length field delimits all of it (R71, R156). -/
structure Delimited (h : Mbap) (frame : List Byte) : Prop where
  header : ∃ body, frame = mbapBytes h ++ body
  length : frame.length = 6 + h.length.toNat

theorem Delimited.frameAvailable {h : Mbap} {frame : List Byte} (hd : Delimited h frame) :
    frameAvailable frame = some frame.length := by
  obtain ⟨⟨body, rfl⟩, hlength⟩ := hd
  have hfield : be16 (byteAt (mbapBytes h ++ body) 4) (byteAt (mbapBytes h ++ body) 5) = h.length :=
    be16_hi8_lo8 h.length
  rw [frameAvailable_eq_some, hfield]
  rw [List.length_append, mbapBytes_length] at hlength ⊢
  omega

/-- R157: a frame is correlated by the transaction id of its header. -/
theorem Delimited.correlate {h : Mbap} {frame : List Byte} {p : Pend} (hd : Delimited h frame)
    (htid : h.tid = p.tid) : correlate frame p = true := by
  obtain ⟨⟨body, rfl⟩, -⟩ := hd
  have hfield : be16 (byteAt (mbapBytes h ++ body) 0) (byteAt (mbapBytes h ++ body) 1) = h.tid :=
    be16_hi8_lo8 h.tid
  rw [Machine.correlate, hfield, htid, beq_self_eq_true]

/-- R165, R166: a frame that arrives whole at an empty `rxbuf` resolves the outstanding request with its
result (`val` by log 4) and leaves no byte. -/
theorem Delimited.receive {h : Mbap} {frame : List Byte} {s : State} {p : Pend} {t : Ticks}
    (hd : Delimited h frame) (hs : s.state = .awaitingResponse p t) (hrx : s.rxbuf = [])
    (hroom : RoomFor s frame.length) :
    receive frame s = .next
      { s with
        state := .idle
        val := valAfter (answer p frame) s.val
        outputs := s.outputs ++ [.resolve (answer p frame)] } := by
  have hne : frame ≠ [] := List.ne_nil_of_length_pos (by have := hd.length; omega)
  rw [receive_rest_of_frame hs hne (by rw [hrx]; exact hd.frameAvailable) hroom, hrx,
    List.nil_append, State.resolvedBy, ← hrx]

/-- R83, R166: such a frame, with the right id, gives a read what the read decoder answers. -/
theorem Delimited.answer_read {h : Mbap} {frame : List Byte} {p : Pend} (hd : Delimited h frame)
    (htid : h.tid = p.tid) (hkind : p.kind = .read) :
    answer p frame = readResult (decodeReadResponse frame p.count.toNat) := by
  rw [answer, if_pos (hd.correlate htid), hkind]

/-- R83, R166: such a frame, with the right id, gives a write what the write decoder answers. -/
theorem Delimited.answer_write {h : Mbap} {frame : List Byte} {p : Pend} (hd : Delimited h frame)
    (htid : h.tid = p.tid) (hkind : p.kind = .write) :
    answer p frame = writeResult (decodeWriteResponse frame p.addr p.count) := by
  rw [answer, if_pos (hd.correlate htid), hkind]

theorem delimited_rdRspFrame {h : Mbap} {rest : List Byte} (byteCount : Byte)
    (hlength : h.length.toNat = 3 + rest.length) : Delimited h (rdRspFrame h byteCount rest) :=
  ⟨⟨_, List.append_assoc _ _ _⟩, by rw [rdRspFrame_length]; omega⟩

theorem delimited_rdExcFrame {h : Mbap} {rest : List Byte} (code : Byte)
    (hlength : h.length.toNat = 3 + rest.length) : Delimited h (rdExcFrame h code rest) :=
  ⟨⟨_, List.append_assoc _ _ _⟩, by rw [rdExcFrame_length]; omega⟩

theorem delimited_wrRspFrame {h : Mbap} {rest : List Byte} (addr count : U16)
    (hlength : h.length.toNat = 6 + rest.length) : Delimited h (wrRspFrame h addr count rest) :=
  ⟨⟨_, by simp only [wrRspFrame, List.append_assoc]; rfl⟩, by rw [wrRspFrame_length]; omega⟩

theorem delimited_wrExcFrame {h : Mbap} {rest : List Byte} (code : Byte)
    (hlength : h.length.toNat = 3 + rest.length) : Delimited h (wrExcFrame h code rest) :=
  ⟨⟨_, List.append_assoc _ _ _⟩, by rw [wrExcFrame_length]; omega⟩

end Sys2Proof.Machine

open Sys2Proof Sys2Proof.Machine

/-- Settles O41: the frame arrives whole, and the read decoder answers the registers it carries. -/
theorem readResponseCompletesTheRead : Obligations.ReadResponseCompletesTheRead := by
  intro s p t h byteCount rest hs hkind hrx htid hlength hcount hdata hroom
  have hd := delimited_rdRspFrame byteCount hlength
  have hanswer := hd.answer_read htid hkind
  rw [decodeReadResponse_rdRspFrame h byteCount rest _ hcount hdata] at hanswer
  rw [exec_rdRsp, hd.receive hs hrx (by rwa [rdRspFrame_length]), hanswer]
  rfl

/-- Settles O42: the frame arrives whole, and the write decoder compares the echo. -/
theorem writeResponseCompletesTheWrite : Obligations.WriteResponseCompletesTheWrite := by
  intro s p t h addr count rest hs hkind hrx htid hlength hroom
  have hd := delimited_wrRspFrame addr count hlength
  have hanswer := hd.answer_write htid hkind
  rw [decodeWriteResponse_wrRspFrame] at hanswer
  rw [exec_wrRsp, hd.receive hs hrx (by rwa [wrRspFrame_length]), hanswer]
  refine ⟨fun hecho => ?_, fun hwrong => ?_⟩
  · rw [if_pos hecho]
    rfl
  · rw [if_neg (by tauto)]
    rfl

/-- Settles O43: the frame arrives whole, and the decoder of the pending kind answers its code. -/
theorem exceptionResponseResolvesWithItsCode : Obligations.ExceptionResponseResolvesWithItsCode := by
  intro s p t h code rest hs hrx htid hlength hroom
  refine ⟨fun hkind => ?_, fun hkind => ?_⟩
  · have hd := delimited_rdExcFrame code hlength
    have hanswer := hd.answer_read htid hkind
    rw [decodeReadResponse_rdExcFrame] at hanswer
    rw [exec_rdExc, hd.receive hs hrx (by rwa [rdExcFrame_length]), hanswer]
    rfl
  · have hd := delimited_wrExcFrame code hlength
    have hanswer := hd.answer_write htid hkind
    rw [decodeWriteResponse_wrExcFrame] at hanswer
    rw [exec_wrExc, hd.receive hs hrx (by rwa [wrExcFrame_length]), hanswer]
    rfl

end

/-! # Proofs about the register serializer and deserializer -/

/-! ### Each byte of `serialize` and each register of `deserialize`, by index (R110, R111) -/
section
namespace Sys2Proof.Machine

/-- R110: value `i` stands at the offsets `2i` and `2i + 1`, high byte first. -/
theorem byteAt_serialize (values : List U16) (i : Nat) (h : i < values.length) :
    byteAt (serialize values) (2 * i) = hi8 values[i] ∧
      byteAt (serialize values) (2 * i + 1) = lo8 values[i] := by
  induction values generalizing i with
  | nil => cases h
  | cons v vs ih =>
    cases i with
    | zero => exact ⟨rfl, rfl⟩
    | succ i => simpa [Nat.mul_succ] using ih i (Nat.lt_of_succ_lt_succ h)

/-- R111: register `i` is put together from the bytes at `offset + 2i` and `offset + 2i + 1`. -/
theorem getElem_deserialize (buffer : List Byte) (offset n i : Nat)
    (h : i < (deserialize buffer offset n).length) :
    (deserialize buffer offset n)[i] =
      be16 (byteAt buffer (offset + 2 * i)) (byteAt buffer (offset + 2 * i + 1)) := by
  simp only [deserialize, deserializeFrom, List.getElem_map, List.getElem_range]

/-- R112: what surrounds the bytes of `serialize` does not matter to `deserialize` at their offset. -/
theorem deserialize_append_serialize (pre : List Byte) (values : List U16) (suf : List Byte) :
    deserialize (pre ++ serialize values ++ suf) pre.length values.length = values := by
  rw [List.append_assoc]
  exact (deserialize_append_right pre (serialize values ++ suf) 0 values.length).trans
    (deserialize_serialize values suf)

end Sys2Proof.Machine

open Sys2Proof Sys2Proof.Machine

/-- Settles O10: the length and the bytes of `serialize`, each by induction on the values. -/
theorem serializeWritesHighByteFirst : Obligations.SerializeWritesHighByteFirst :=
  fun values => ⟨serialize_length values, byteAt_serialize values⟩

/-- Settles O12: reading back drops the surroundings, and bytes of even length are all read. -/
theorem serdesRoundTrip : Obligations.SerdesRoundTrip :=
  ⟨deserialize_append_serialize, fun b n => serialize_deserialize n b⟩

/-- Settles O11. The precondition of R111 is not needed in the model: `byteAt` is total. -/
theorem deserializeReadsHighByteFirst : Obligations.DeserializeReadsHighByteFirst :=
  fun buffer offset n _ =>
    ⟨deserializeFrom_length (byteAt buffer) offset n, getElem_deserialize buffer offset n⟩

end

/-! # Proofs about the frame encoder and the width of its operands -/

/-! ### What a request frame carries, and where (R72, R73, R122, R123) -/
section
namespace Sys2Proof.Machine

/-- The fields of a request frame at the offsets of R72 and R73, which are the same for a read and a
write. -/
structure CarriesFields (frame : List Byte) (tid length : U16) (unitId : Byte) (addr count : U16) :
    Prop where
  tid_eq : be16 (byteAt frame 0) (byteAt frame 1) = tid
  length_eq : be16 (byteAt frame 4) (byteAt frame 5) = length
  unitId_eq : byteAt frame 6 = unitId
  addr_eq : be16 (byteAt frame 8) (byteAt frame 9) = addr
  count_eq : be16 (byteAt frame 10) (byteAt frame 11) = count

theorem rdReqFrame_carriesFields (tid : U16) (unitId : Byte) (addr count : U16) :
    CarriesFields (rdReqFrame tid unitId addr count) tid 6 unitId addr count where
  tid_eq := be16_hi8_lo8 tid
  length_eq := be16_hi8_lo8 6
  unitId_eq := rfl
  addr_eq := be16_hi8_lo8 addr
  count_eq := be16_hi8_lo8 count

theorem wrReqFrame_carriesFields (tid : U16) (unitId : Byte) (addr : U16) (values : List U16) :
    CarriesFields (wrReqFrame tid unitId addr values) tid
      (BitVec.ofNat 16 (7 + 2 * values.length)) unitId addr
      (BitVec.ofNat 16 values.length) where
  tid_eq := be16_hi8_lo8 tid
  length_eq := be16_hi8_lo8 (BitVec.ofNat 16 (7 + 2 * values.length))
  unitId_eq := rfl
  addr_eq := be16_hi8_lo8 addr
  count_eq := be16_hi8_lo8 (BitVec.ofNat 16 values.length)

theorem rdReqFrame_length (tid : U16) (unitId : Byte) (addr count : U16) :
    (rdReqFrame tid unitId addr count).length = 12 := rfl

theorem wrReqFrame_length (tid : U16) (unitId : Byte) (addr : U16) (values : List U16) :
    (wrReqFrame tid unitId addr values).length = 13 + 2 * values.length := by
  simp only [wrReqFrame, List.length_append, List.length_cons, List.length_nil, be16Bytes_length,
    serialize_length]

/-- R123: the values of a write stand behind its 13 header bytes. -/
theorem deserialize_wrReqFrame (tid : U16) (unitId : Byte) (addr : U16) (values : List U16) :
    deserialize (wrReqFrame tid unitId addr values) 13 values.length = values := by
  have hvalues : deserialize (serialize values) 0 values.length = values := by
    simpa using deserialize_serialize values []
  exact (deserialize_append_right _ (serialize values) 0 values.length).trans hvalues

/-- R120: what the read encoder answers, when it answers a frame. -/
theorem eq_rdReqFrame_of_encodeReadRequest_ok {tid : U16} {unitId : Byte} {addr count : U16}
    {frame : List Byte} (h : encodeReadRequest tid unitId addr count = .ok frame) :
    frame = rdReqFrame tid unitId addr count := by
  obtain ⟨hmin, hmax⟩ := count_of_encodeReadRequest_ok h
  rw [encodeReadRequest_of_legal _ _ _ _ hmin hmax] at h
  exact (Except.ok.inj h).symm

/-- R121: what the write encoder answers, when it answers a frame. -/
theorem eq_wrReqFrame_of_encodeWriteRequest_ok {tid : U16} {unitId : Byte} {addr : U16}
    {values : List U16} {frame : List Byte}
    (h : encodeWriteRequest tid unitId addr values = .ok frame) :
    frame = wrReqFrame tid unitId addr values := by
  obtain ⟨hmin, hmax⟩ := length_of_encodeWriteRequest_ok h
  rw [encodeWriteRequest_of_legal _ _ _ _ hmin hmax] at h
  exact (Except.ok.inj h).symm

end Sys2Proof.Machine

open Sys2Proof Sys2Proof.Machine

/-- Settles O15: both fields are read off the frame; the legal number of values keeps a write's from
wrapping around. -/
theorem lengthFieldLaw : Obligations.LengthFieldLaw := by
  constructor
  · intro tid unitId addr count frame hok
    rw [eq_rdReqFrame_of_encodeReadRequest_ok hok,
      (rdReqFrame_carriesFields tid unitId addr count).length_eq, rdReqFrame_length]
    decide
  · intro tid unitId addr values frame hok
    obtain ⟨-, hmax⟩ := length_of_encodeWriteRequest_ok hok
    have hfield : (BitVec.ofNat 16 (7 + 2 * values.length)).toNat = 7 + 2 * values.length := by
      rw [BitVec.toNat_ofNat, Nat.mod_eq_of_lt (by omega)]
    rw [eq_wrReqFrame_of_encodeWriteRequest_ok hok,
      (wrReqFrame_carriesFields tid unitId addr values).length_eq, hfield, wrReqFrame_length]
    omega

/-- Settles O16: the frame carries its fields, and the count in it is the number of values. -/
theorem encoderArgumentsReadBack : Obligations.EncoderArgumentsReadBack := by
  constructor
  · intro tid unitId addr count frame hok
    rw [eq_rdReqFrame_of_encodeReadRequest_ok hok]
    have hcarries := rdReqFrame_carriesFields tid unitId addr count
    exact ⟨hcarries.tid_eq, hcarries.unitId_eq, hcarries.addr_eq, hcarries.count_eq⟩
  · intro tid unitId addr values frame hok
    obtain ⟨-, hmax⟩ := length_of_encodeWriteRequest_ok hok
    have hcount : (BitVec.ofNat 16 values.length).toNat = values.length := by
      rw [BitVec.toNat_ofNat, Nat.mod_eq_of_lt (by omega)]
    rw [eq_wrReqFrame_of_encodeWriteRequest_ok hok]
    have hcarries := wrReqFrame_carriesFields tid unitId addr values
    rw [hcarries.count_eq, hcount]
    exact ⟨hcarries.tid_eq, hcarries.unitId_eq, hcarries.addr_eq, rfl,
      deserialize_wrReqFrame tid unitId addr values⟩

/-- Settles O13, by the encoder's answer for an illegal and for a legal count. -/
theorem readRequestBytes : Obligations.ReadRequestBytes :=
  fun tid unitId addr count =>
    ⟨encodeReadRequest_of_illegal tid unitId addr count,
      encodeReadRequest_of_legal tid unitId addr count⟩

/-- Settles O14, by the encoder's answer for an illegal and for a legal number of values. -/
theorem writeRequestBytes : Obligations.WriteRequestBytes := by
  intro tid unitId addr values
  refine ⟨encodeWriteRequest_of_illegal tid unitId addr values, fun hmin hmax => ?_⟩
  rw [← wrReqFrame_eq tid unitId addr values hmax]
  exact encodeWriteRequest_of_legal tid unitId addr values hmin hmax

end

/-! ### Operands that do not fit their field (R124, R201) -/
section
namespace Sys2Proof.Machine

/-- R160, R209: in `Idle` the encoding's error is the submission's. -/
theorem submit_error_of_idle {s : State} (hidle : s.state = .idle) (e : Err) :
    submit (.error e) s = reject e s := by
  simp [submit, hidle]

/-- R160, R124: a read with an illegal operand, in `Idle`. -/
theorem exec_submitRead_of_illegal {s : State} (hidle : s.state = .idle) {addr count : Nat}
    (h : 65536 ≤ addr ∨ count = 0 ∨ 125 < count) :
    exec (.submitRead addr count) s = .next (reject .invalidParameters s) := by
  rw [← submit_error_of_idle hidle, ← readRequest_invalid s.nextTid s.unitId addr count h]
  rfl

/-- R161, R124: a write with an illegal operand, in `Idle`. -/
theorem exec_submitWrite_of_illegal {s : State} (hidle : s.state = .idle) {addr : Nat}
    {values : List Nat}
    (h : 65536 ≤ addr ∨ (∃ v ∈ values, 65536 ≤ v) ∨ values.length = 0 ∨ 123 < values.length) :
    exec (.submitWrite addr values) s = .next (reject .invalidParameters s) := by
  rw [← submit_error_of_idle hidle, ← writeRequest_invalid s.nextTid s.unitId addr values h]
  rfl

/-- R174, R124: a unit id of more than 8 bits. -/
theorem exec_cfgUnit_of_wide {u : Nat} (h : 2 ^ 8 ≤ u) (s : State) :
    exec (.cfgUnit u) s = .next (giveBack (.err .invalidParameters) s) := by
  simp [exec, execCfgUnit, narrow_eq_none.mpr h]

/-- R175, R201: a duration of more than `TIMEOUT_W` bits. -/
theorem exec_cfgTimeout_of_wide {t : Nat} (h : 2 ^ Config.timeoutW ≤ t) (s : State) :
    exec (.cfgTimeout t) s = .next (giveBack (.err .invalidParameters) s) := by
  simp [exec, execCfgTimeout, narrow_eq_none.mpr h]

/-- R110, R124: a value of more than 16 bits. -/
theorem exec_serialize_of_wide {values : List Nat} (h : ∃ v ∈ values, 65536 ≤ v) (s : State) :
    exec (.serialize values) s = .next (giveBack (.err .invalidParameters) s) := by
  simp [exec, execSerialize, narrowAll_eq_none.mpr h]

end Sys2Proof.Machine

open Sys2Proof Sys2Proof.Machine

/-- Settles O25, by what each of the five rows does with an operand too wide for its field. -/
theorem operandsThatDoNotFitAreInvalidParameters :
    Obligations.OperandsThatDoNotFitAreInvalidParameters := by
  intro s
  refine ⟨fun hidle => ⟨fun addr count h => ?_, fun addr values h => ?_⟩,
    fun u h => exec_cfgUnit_of_wide h s, fun t h => exec_cfgTimeout_of_wide h s,
    fun values h => exec_serialize_of_wide h s⟩
  · have hillegal : 65536 ≤ addr ∨ count = 0 ∨ 125 < count := by omega
    exact exec_submitRead_of_illegal hidle hillegal
  · exact exec_submitWrite_of_illegal hidle (h.imp_right .inl)

end

/-! # Proofs about the frame decoder -/

/-! ### The answers of the decoders, check by check (R130 to R133, R136 to R139) -/
section
namespace Sys2Proof.Machine

section
variable {b : List Byte} {n : Nat}

/-- R130: too short for an exception response. -/
theorem decodeReadResponse_of_short (hshort : b.length < 9) :
    decodeReadResponse b n = .error .malformedFrame :=
  if_pos hshort

/-- R131: the exception is looked for before the length the values need. -/
theorem decodeReadResponse_of_exception (hlen : 9 ≤ b.length) (hexc : byteAt b 7 = 0x83) :
    decodeReadResponse b n = .error (.deviceException (byteAt b 8)) := by
  rw [decodeReadResponse, decodeReadFrom, fcReadExc_eq, if_neg (Nat.not_lt.mpr hlen), if_pos hexc]

/-- R132: too short for the values asked for. -/
theorem decodeReadResponse_of_truncated (hlen : 9 ≤ b.length) (htrunc : b.length < 9 + 2 * n)
    (hexc : byteAt b 7 ≠ 0x83) : decodeReadResponse b n = .error .malformedFrame := by
  rw [decodeReadResponse, decodeReadFrom, fcReadExc_eq, if_neg (Nat.not_lt.mpr hlen),
    if_neg hexc, if_pos htrunc]

/-- R132: what is left to check in a buffer that holds the values and is no exception. -/
theorem decodeReadResponse_of_complete (hlen : 9 + 2 * n ≤ b.length) (hexc : byteAt b 7 ≠ 0x83) :
    decodeReadResponse b n =
      if byteAt b 7 ≠ 0x03 then .error .protocolError
      else if (byteAt b 8).toNat ≠ 2 * n then .error .protocolError
      else .ok (deserialize b 9 n) := by
  have hlong : 9 ≤ b.length := by omega
  rw [decodeReadResponse, decodeReadFrom, fcReadExc_eq, if_neg (Nat.not_lt.mpr hlong),
    if_neg hexc, if_neg (Nat.not_lt.mpr hlen)]
  rfl

/-- R133, R143: an answer that is neither values nor an exception, whenever the function code is not
that of a read. -/
theorem decodeReadResponse_of_foreign_fc (hfc : byteAt b 7 ≠ 0x03)
    (hexc : ¬(9 ≤ b.length ∧ byteAt b 7 = 0x83)) :
    decodeReadResponse b n = .error .protocolError ∨
      decodeReadResponse b n = .error .malformedFrame := by
  by_cases hlen : 9 ≤ b.length
  · have hne : byteAt b 7 ≠ 0x83 := fun h => hexc ⟨hlen, h⟩
    by_cases hcomplete : 9 + 2 * n ≤ b.length
    · exact .inl ((decodeReadResponse_of_complete hcomplete hne).trans (if_pos hfc))
    · exact .inr (decodeReadResponse_of_truncated hlen (Nat.lt_of_not_le hcomplete) hne)
  · exact .inr (decodeReadResponse_of_short (Nat.lt_of_not_le hlen))

end

section
variable {b : List Byte} {addr count : U16}

/-- R136: too short for an exception response. -/
theorem decodeWriteResponse_of_short (hshort : b.length < 9) :
    decodeWriteResponse b addr count = .error .malformedFrame :=
  if_pos hshort

/-- R137: the exception is looked for before the length the echo needs. -/
theorem decodeWriteResponse_of_exception (hlen : 9 ≤ b.length) (hexc : byteAt b 7 = 0x90) :
    decodeWriteResponse b addr count = .error (.deviceException (byteAt b 8)) := by
  rw [decodeWriteResponse, decodeWriteFrom, fcWriteExc_eq, if_neg (Nat.not_lt.mpr hlen),
    if_pos hexc]

/-- R138: too short for the echo. -/
theorem decodeWriteResponse_of_truncated (hlen : 9 ≤ b.length) (htrunc : b.length < 12)
    (hexc : byteAt b 7 ≠ 0x90) : decodeWriteResponse b addr count = .error .malformedFrame := by
  rw [decodeWriteResponse, decodeWriteFrom, fcWriteExc_eq, if_neg (Nat.not_lt.mpr hlen),
    if_neg hexc, if_pos htrunc]

/-- R138: what is left to check in a buffer that holds the echo and is no exception. -/
theorem decodeWriteResponse_of_complete (hlen : 12 ≤ b.length) (hexc : byteAt b 7 ≠ 0x90) :
    decodeWriteResponse b addr count =
      if byteAt b 7 ≠ 0x10 then .error .protocolError
      else if be16 (byteAt b 8) (byteAt b 9) ≠ addr then .error .protocolError
      else if be16 (byteAt b 10) (byteAt b 11) ≠ count then .error .protocolError
      else .ok () := by
  have hlong : 9 ≤ b.length := by omega
  rw [decodeWriteResponse, decodeWriteFrom, fcWriteExc_eq, if_neg (Nat.not_lt.mpr hlong),
    if_neg hexc, if_neg (Nat.not_lt.mpr hlen)]

/-- R139, R143: an answer that is neither success nor an exception, whenever the function code is not
that of a write. -/
theorem decodeWriteResponse_of_foreign_fc (hfc : byteAt b 7 ≠ 0x10)
    (hexc : ¬(9 ≤ b.length ∧ byteAt b 7 = 0x90)) :
    decodeWriteResponse b addr count = .error .protocolError ∨
      decodeWriteResponse b addr count = .error .malformedFrame := by
  by_cases hlen : 9 ≤ b.length
  · have hne : byteAt b 7 ≠ 0x90 := fun h => hexc ⟨hlen, h⟩
    by_cases hcomplete : 12 ≤ b.length
    · exact .inl ((decodeWriteResponse_of_complete hcomplete hne).trans (if_pos hfc))
    · exact .inr (decodeWriteResponse_of_truncated hlen (Nat.lt_of_not_le hcomplete) hne)
  · exact .inr (decodeWriteResponse_of_short (Nat.lt_of_not_le hlen))

end

end Sys2Proof.Machine

open Sys2Proof Sys2Proof.Machine

/-- Settles O17: the checks of `decodeReadResponse` in their order. -/
theorem readResponseByCases : Obligations.ReadResponseByCases := by
  intro b n
  refine ⟨decodeReadResponse_of_short, decodeReadResponse_of_exception,
    decodeReadResponse_of_truncated, fun hlen hfc hexc => ?_, fun hlen hfc hcount => ?_,
    fun hlen hfc hcount => ?_⟩
  · rw [decodeReadResponse_of_complete hlen hexc, if_pos hfc]
  · have hexc : byteAt b 7 ≠ 0x83 := by simp [hfc]
    rw [decodeReadResponse_of_complete hlen hexc, if_neg (not_not.mpr hfc), if_pos hcount]
  · have hexc : byteAt b 7 ≠ 0x83 := by simp [hfc]
    rw [decodeReadResponse_of_complete hlen hexc, if_neg (not_not.mpr hfc),
      if_neg (not_not.mpr hcount)]
    rfl

/-- Settles O18: the checks of `decodeWriteResponse` in their order. -/
theorem writeResponseByCases : Obligations.WriteResponseByCases := by
  intro b addr count
  refine ⟨decodeWriteResponse_of_short, decodeWriteResponse_of_exception,
    decodeWriteResponse_of_truncated, fun hlen hfc hexc => ?_, fun hlen hfc haddr => ?_,
    fun hlen hfc haddr hcount => ?_, fun hlen hfc haddr hcount => ?_⟩
  · rw [decodeWriteResponse_of_complete hlen hexc, if_pos hfc]
  all_goals
    have hexc : byteAt b 7 ≠ 0x90 := by simp [hfc]
    rw [decodeWriteResponse_of_complete hlen hexc, if_neg (not_not.mpr hfc)]
  · rw [if_pos haddr]
  · rw [if_neg (not_not.mpr haddr), if_pos hcount]
  · rw [if_neg (not_not.mpr haddr), if_neg (not_not.mpr hcount)]

/-- Settles O22: a function code with bit 7 set is neither that of a read nor that of a write, so the
two decoders answer an error, and an exception only for their own code. -/
theorem exceptionBitIsNeverAValue : Obligations.ExceptionBitIsNeverAValue := by
  intro b hbit
  refine ⟨fun n => ?_, fun addr count => ?_⟩
  · by_cases hexc : 9 ≤ b.length ∧ byteAt b 7 = 0x83
    · obtain ⟨hlen, hfc⟩ := hexc
      exact .inl ⟨hlen, hfc, decodeReadResponse_of_exception hlen hfc⟩
    · have hfc : byteAt b 7 ≠ 0x03 := fun h => absurd (h ▸ hbit) (by decide)
      exact .inr ⟨hexc, decodeReadResponse_of_foreign_fc hfc hexc⟩
  · by_cases hexc : 9 ≤ b.length ∧ byteAt b 7 = 0x90
    · obtain ⟨hlen, hfc⟩ := hexc
      exact .inl ⟨hlen, hfc, decodeWriteResponse_of_exception hlen hfc⟩
    · have hfc : byteAt b 7 ≠ 0x10 := fun h => absurd (h ▸ hbit) (by decide)
      exact .inr ⟨hexc, decodeWriteResponse_of_foreign_fc hfc hexc⟩

/-- Settles O21: neither decoder reads past the length it has checked. -/
theorem decodersReadOnlyInsideTheBuffer : Obligations.DecodersReadOnlyInsideTheBuffer :=
  fun _ _ _ hsame => ⟨decodeReadFrom_congr hsame, decodeWriteFrom_congr hsame⟩

end

/-! ### The well-behaved device's responses (R84, R85, R134, R140) -/
section
open Sys2Proof Sys2Proof.Machine

/-- Settles O19: at most 125 values have a byte count that fits its byte, and `deserialize` undoes the
device's `serialize`. -/
theorem readResponseRoundTrip : Obligations.ReadResponseRoundTrip := by
  intro tid unitId values _ hmax
  have hcount : (BitVec.ofNat 8 (2 * values.length)).toNat = 2 * values.length := by
    rw [BitVec.toNat_ofNat, Nat.mod_eq_of_lt (by omega)]
  have hvalues : deserialize (serialize values) 0 values.length = values := by
    simpa using deserialize_serialize values []
  rw [rdRsp, decodeReadResponse_rdRspFrame _ _ _ _ hcount (serialize_length values).ge, hvalues]

/-- Settles O20: the decoder confirms the write exactly when the response echoes address and count. -/
theorem writeEchoLaw : Obligations.WriteEchoLaw := by
  intro tid unitId addr count
  refine ⟨?_, fun addr' count' hwrong => ?_⟩
  · rw [wrRsp, decodeWriteResponse_wrRspFrame, if_pos ⟨rfl, rfl⟩]
  · rw [wrRsp, decodeWriteResponse_wrRspFrame, if_neg (not_and_or.mpr hwrong)]

end

/-! # Proofs about the Transaction Client (43_transaction_client.md) -/

/-! ### Single resolution (R24.6, R153, R160, R210) -/
section
namespace Sys2Proof.Machine

@[simp] theorem resolveCount_append (os os' : List Output) :
    resolveCount (os ++ os') = resolveCount os + resolveCount os' := List.countP_append

theorem outstanding_congr {s t : State} (h : t.state = s.state) : outstanding t = outstanding s := by
  rw [outstanding, outstanding, h]

theorem outstanding_of_awaiting {s : State} {p : Pend} {r : Ticks}
    (h : s.state = .awaitingResponse p r) : outstanding s = 1 := by rw [outstanding, h]

theorem outstanding_of_not_awaiting {s : State} (h : s.state = .idle ∨ s.state = .closed) :
    outstanding s = 0 := by
  rcases h with h | h <;> rw [outstanding, h]

/-- R153: from `s` to `t`, what was resolved and what is left outstanding is what was sent and what was
outstanding before. -/
def Balanced (s t : State) : Prop :=
  resolveCount t.outputs + outstanding t + txCount s.outputs =
    resolveCount s.outputs + outstanding s + txCount t.outputs

theorem Balanced.trans {s t u : State} (hst : Balanced s t) (htu : Balanced t u) : Balanced s u := by
  unfold Balanced at *
  omega

/-- Only the outputs added count. -/
theorem balanced_of_added {s t : State} (os : List Output) (houtputs : t.outputs = s.outputs ++ os)
    (h : resolveCount os + outstanding t = outstanding s + txCount os) : Balanced s t := by
  simp only [Balanced, houtputs, resolveCount_append, txCount_append]
  omega

/-- No output, and a request outstanding exactly if there was one. -/
theorem balanced_of_silent {s t : State} (houtputs : t.outputs = s.outputs)
    (h : outstanding t = outstanding s) : Balanced s t :=
  balanced_of_added [] (by simp [houtputs]) (by simp [h, resolveCount, txCount])

/-- R209: a rejection, or a value handed back, is neither a `Tx` nor a `Resolve`. -/
theorem balanced_emit {o : Output} (s : State) (hresolve : resolveCount [o] = 0)
    (htx : txCount [o] = 0) : Balanced s (emit o s) :=
  balanced_of_added [o] rfl (by rw [hresolve, htx, outstanding_congr (emit_state o s), Nat.add_comm])

/-- R210: the one `Resolve` stands for the request that is outstanding no more. -/
theorem balanced_of_resolved {s t : State} {p : Pend} {ticks : Ticks} (r : Result)
    (hs : s.state = .awaitingResponse p ticks) (ht : t.state = .idle ∨ t.state = .closed)
    (houtputs : t.outputs = s.outputs ++ [.resolve r]) : Balanced s t :=
  balanced_of_added _ houtputs (by
    rw [outstanding_of_awaiting hs, outstanding_of_not_awaiting ht]
    rfl)

/-- R160: the one `Tx` stands for the request that is now outstanding. -/
theorem accept_balanced {q : Request} {s : State} (hs : s.state = .idle) : Balanced s (accept q s) :=
  balanced_of_added _ (accept_outputs q s) (by
    rw [outstanding_of_awaiting (accept_state q s), outstanding_of_not_awaiting (.inl hs)]
    rfl)

/-- R166: the trial of completion resolves the outstanding request or does nothing. -/
theorem tryComplete_balanced (s : State) : Balanced s (tryComplete s) := by
  rcases tryComplete_cases s with ⟨p, r, size, hs, -, e⟩ | ⟨e, -⟩ <;> rw [e]
  · rw [complete_eq]
    exact balanced_of_resolved _ hs (.inl rfl) rfl
  · exact balanced_of_silent rfl rfl

theorem receiveByte_balanced {b : Byte} {s t : State} (h : receiveByte b s = .next t) :
    Balanced s t := by
  rcases receiveByte_next b s t h with ⟨-, rfl⟩ | ⟨-, -, rfl⟩
  · exact balanced_of_silent rfl rfl
  · have happend : Balanced s { s with rxbuf := s.rxbuf ++ [b] } := balanced_of_silent rfl rfl
    exact happend.trans (tryComplete_balanced _)

theorem receive_balanced {bytes : List Byte} {s t : State} (h : receive bytes s = .next t) :
    Balanced s t :=
  receive_keeps (P := Balanced s) (fun _ _ _ hs hb => hs.trans (receiveByte_balanced hb))
    bytes s t (balanced_of_silent rfl rfl) h

/-- R153 for one instruction: each of its effects but that of `Reset` is balanced. -/
theorem Effect.balanced {i : Instr} {s t : State} (he : Effect s i t) (hi : i ≠ .reset) :
    Balanced s t := by
  cases he with
  | returns _ r => exact balanced_emit s rfl rfl
  | rejects _ e _ => exact balanced_emit s rfl rfl
  | accepts _ q _ hs _ => exact (accept_balanced hs).trans (tryComplete_balanced _)
  | receives _ bytes _ ht => exact receive_balanced ht
  | counts p r hs _ =>
    exact balanced_of_silent rfl (by rw [outstanding_of_awaiting hs, outstanding_of_awaiting rfl])
  | aborts _ p r e after hs hafter => exact balanced_of_resolved (.err e) hs hafter rfl
  | drops _ => exact balanced_of_silent rfl rfl
  | closes hs =>
    exact balanced_of_silent rfl (by
      rw [outstanding_of_not_awaiting (.inl hs), outstanding_of_not_awaiting (.inr rfl)])
  | ignores => exact balanced_of_silent rfl rfl
  | setsUnit u b => exact balanced_of_silent rfl rfl
  | setsTimeout n d => exact balanced_of_silent rfl rfl
  | resets _ _ => exact absurd rfl hi

@[simp] theorem execAll_cons (i : Instr) (is : List Instr) (s : State) :
    execAll (i :: is) s = andThen (exec i s) (execAll is) := rfl

/-- What each instruction of a run keeps, the run keeps. -/
theorem execAll_keeps {P : State → Prop} (is : List Instr)
    (step : ∀ i ∈ is, ∀ s t, P s → exec i s = .next t → P t) {s t : State} (hs : P s)
    (h : execAll is s = .next t) : P t := by
  induction is generalizing s with
  | nil =>
    cases h
    exact hs
  | cons i is ih =>
    obtain ⟨u, hu, ht⟩ := (andThen_eq_next _ _ _).mp h
    exact ih (fun j hj => step j (.tail i hj)) (step i (.head is) s u hs hu) ht

end Sys2Proof.Machine

open Sys2Proof Sys2Proof.Machine

/-- Settles O51: every instruction of the run is balanced, so the run is. -/
theorem everyAcceptedSubmissionResolvesOnce : Obligations.EveryAcceptedSubmissionResolvesOnce := by
  intro is s t hreset hrun
  have hstep : ∀ i ∈ is, ∀ u v, Balanced s u → exec i u = .next v → Balanced s v :=
    fun i hi u v hu hv => hu.trans ((exec_effect hv).balanced (ne_of_mem_of_not_mem hi hreset))
  exact execAll_keeps is hstep (balanced_of_silent rfl rfl) hrun

end

/-! ### An accepted submission is sent, and awaited or resolved at once (R160, R161, R166) -/
section
namespace Sys2Proof.Machine

/-- R160: an accepted read is sent, and then its completion is tried. -/
theorem exec_submitRead_of_ok {s : State} {addr count : U16} {frame : List Byte}
    (hidle : s.state = .idle)
    (hframe : encodeReadRequest s.nextTid s.unitId addr count = .ok frame) :
    exec (.submitRead addr.toNat count.toNat) s =
      .next (tryComplete (accept ⟨.read, addr, count, frame⟩ s)) := by
  simp [exec, execSubmitRead, hframe, Except.map, submit, hidle]

/-- R161: an accepted write is sent, and then its completion is tried. -/
theorem exec_submitWrite_of_ok {s : State} {addr : U16} {values : List U16} {frame : List Byte}
    (hidle : s.state = .idle)
    (hframe : encodeWriteRequest s.nextTid s.unitId addr values = .ok frame) :
    exec (.submitWrite addr.toNat (values.map BitVec.toNat)) s =
      .next (tryComplete (accept ⟨.write, addr, BitVec.ofNat 16 values.length, frame⟩ s)) := by
  simp [exec, execSubmitWrite, hframe, Except.map, submit, hidle]

/-- R160: with no complete frame buffered the accepted request is awaited. -/
theorem tryComplete_accept_of_none {s : State} (q : Request) (hnone : frameAvailable s.rxbuf = none) :
    tryComplete (accept q s) = accept q s :=
  tryComplete_of_incomplete fun _ _ _ => hnone

/-- R160 (a), R166: a complete frame already buffered resolves the accepted request. -/
theorem tryComplete_accept_of_some {s : State} {size : Nat} (q : Request) (hidle : s.state = .idle)
    (hsome : frameAvailable s.rxbuf = some size) :
    tryComplete (accept q s) =
      { s with
        nextTid := s.nextTid + 1
        rxbuf := s.rxbuf.drop size
        val := valAfter (answer ⟨q.kind, s.nextTid, q.addr, q.count⟩ (s.rxbuf.take size)) s.val
        outputs := s.outputs ++ [.tx q.frame,
          .resolve (answer ⟨q.kind, s.nextTid, q.addr, q.count⟩ (s.rxbuf.take size))] } := by
  rw [tryComplete_of_available (accept_state q s) hsome, complete_eq]
  simp [accept, emit, hidle]

/-- R83: a write's answer delivers no values, so it leaves `val` (log 4). -/
theorem valAfter_answer_of_write {p : Pend} (hkind : p.kind = .write) (frame : List Byte)
    (v : List U16) : valAfter (answer p frame) v = v :=
  (valAfter_cases (answer p frame) v).resolve_right fun h =>
    absurd ((answer_okValues h).1.symm.trans hkind) nofun

end Sys2Proof.Machine

open Sys2Proof Sys2Proof.Machine

/-- Settles O28: the accepted request is completed by the buffered frame; the answer to a write has no
values to leave in `val`. -/
theorem bufferedFrameResolvesTheSubmission : Obligations.BufferedFrameResolvesTheSubmission := by
  intro s size hidle hsome
  refine ⟨fun addr count frame hframe => ?_, fun addr values frame hframe => ?_⟩
  · rw [exec_submitRead_of_ok hidle hframe, tryComplete_accept_of_some _ hidle hsome]
  · rw [exec_submitWrite_of_ok hidle hframe, tryComplete_accept_of_some _ hidle hsome,
      valAfter_answer_of_write rfl]

/-- Settles O26: a legal count is encoded as R72's frame, and nothing buffered completes it. -/
theorem acceptedReadIsSentAndAwaited : Obligations.AcceptedReadIsSentAndAwaited := by
  intro s addr count hidle hmin hmax hnone
  rw [exec_submitRead_of_ok hidle (encodeReadRequest_of_legal _ _ _ _ hmin hmax),
    tryComplete_accept_of_none _ hnone]
  rfl

/-- Settles O27: a legal number of values is encoded as R73's frame, and nothing buffered completes it. -/
theorem acceptedWriteIsSentAndAwaited : Obligations.AcceptedWriteIsSentAndAwaited := by
  intro s addr values hidle hmin hmax hnone
  rw [exec_submitWrite_of_ok hidle (encodeWriteRequest_of_legal _ _ _ _ hmin hmax),
    tryComplete_accept_of_none _ hnone, wrReqFrame_eq _ _ _ _ hmax]
  rfl

end

/-! ### Framing, and the result of a complete frame (R156, R157, R83, R166) -/
section
namespace Sys2Proof.Machine

/-- R157: a frame with another transaction id is decoded by no decoder. -/
theorem answer_of_other_tid {p : Pend} {frame : List Byte}
    (htid : be16 (byteAt frame 0) (byteAt frame 1) ≠ p.tid) :
    answer p frame = .err .protocolError := by
  simp [answer, correlate, htid]

/-- R83: the answer to a read is the read decoder's. -/
theorem answer_of_read {p : Pend} {frame : List Byte}
    (htid : be16 (byteAt frame 0) (byteAt frame 1) = p.tid) (hkind : p.kind = .read) :
    answer p frame = readResult (decodeReadResponse frame p.count.toNat) := by
  simp [answer, correlate, htid, hkind]

/-- R83: the answer to a write is the write decoder's. -/
theorem answer_of_write {p : Pend} {frame : List Byte}
    (htid : be16 (byteAt frame 0) (byteAt frame 1) = p.tid) (hkind : p.kind = .write) :
    answer p frame = writeResult (decodeWriteResponse frame p.addr p.count) := by
  simp [answer, correlate, htid, hkind]

end Sys2Proof.Machine

open Sys2Proof Sys2Proof.Machine

/-- Settles O30, by when a frame is complete and when none is. -/
theorem framingRule : Obligations.FramingRule := by
  intro rxbuf
  refine ⟨fun hprefix => ?_, fun _ hbody => ?_, fun hprefix hbody => ?_⟩
  · exact (frameAvailable_eq_none rxbuf).mpr (.inl hprefix)
  · exact (frameAvailable_eq_none rxbuf).mpr (.inr hbody)
  · exact (frameAvailable_eq_some rxbuf _).mpr ⟨hprefix, rfl, hbody⟩

/-- Settles O31: correlation, then the decoder of the kind. -/
theorem completeFrameOutcome : Obligations.CompleteFrameOutcome := by
  intro p frame
  refine ⟨answer_of_other_tid, fun htid hkind => ?_, fun htid hkind => ?_⟩
  · rw [answer_of_read htid hkind]
    exact ⟨fun _ hok => by rw [hok, readResult], fun _ herr => by rw [herr, readResult]⟩
  · rw [answer_of_write htid hkind]
    exact ⟨fun hok => by rw [hok, writeResult], fun _ herr => by rw [herr, writeResult]⟩

end

/-! ### Reception in each state, and how it is cut into chunks (R44, R165, R177) -/
section
namespace Sys2Proof.Machine

/-- R182: a run is its first part and then the rest. -/
theorem execAll_append (is js : List Instr) (s : State) :
    execAll (is ++ js) s = andThen (execAll is s) (execAll js) := by
  induction is generalizing s with
  | nil => rfl
  | cons i is ih =>
    rw [List.cons_append, execAll_cons, execAll_cons, andThen_assoc]
    exact congrArg (andThen (exec i s)) (funext ih)

/-- R165 (e): in `Closed` received bytes are dropped. -/
theorem receive_of_closed (bytes : List Byte) {s : State} (hclosed : s.state = .closed) :
    receive bytes s = .next s := by
  induction bytes with
  | nil => rfl
  | cons b bytes ih =>
    have hbyte : receiveByte b s = .next s := by simp [receiveByte, hclosed]
    rw [receive_cons, hbyte, andThen_next_left, ih]

end Sys2Proof.Machine

open Sys2Proof Sys2Proof.Machine

/-- Settles O34: either run of chunks is the reception of the same bytes. -/
theorem chunkingIsImmaterial : Obligations.ChunkingIsImmaterial := by
  intro pre post chunks chunks' s hbytes
  have hchunks : execAll (chunks.map Instr.rx) = execAll (chunks'.map Instr.rx) := by
    funext t
    rw [execAll_map_rx, execAll_map_rx, hbytes]
  simp only [execAll_append, hchunks]

/-- Settles O35: in `Idle` no frame waits for a request. -/
theorem rxInIdleKeepsTheBytes : Obligations.RxInIdleKeepsTheBytes := by
  intro bytes s hidle hroom
  exact receive_of_incomplete bytes s (by simp [hidle]) (incomplete_of_idle hidle _) hroom

/-- Settles O36: each byte is dropped. -/
theorem rxInClosedDropsTheBytes : Obligations.RxInClosedDropsTheBytes :=
  fun bytes _ hclosed => receive_of_closed bytes hclosed

/-- Settles O37: bytes that complete no frame are kept. -/
theorem rxOfAnIncompleteFrameWaits : Obligations.RxOfAnIncompleteFrameWaits := by
  intro bytes s p t hs hnone hroom
  exact receive_of_incomplete bytes s (by simp [hs]) (fun _ _ _ => hnone) hroom

end

/-! ### The timer (R171) -/
section
namespace Sys2Proof.Machine

/-- R171: without a request outstanding `Tick` does nothing. -/
theorem exec_tick_of_not_awaiting {s : State} (h : s.state = .idle ∨ s.state = .closed) :
    exec .tick s = .next s := by
  rcases h with h | h <;> simp [exec, execTick, h]

/-- R171: the tick at the end of the timer. -/
theorem exec_tick_of_last {s : State} {p : Pend} {t : Ticks} (hs : s.state = .awaitingResponse p t)
    (hlast : t.toNat ≤ 1) :
    exec .tick s = .next (resolve (.err .timeout) .idle (discardRx s)) := by
  simp [exec, execTick, hs, hlast]

/-- R171: every tick before it. -/
theorem exec_tick_of_running {s : State} {p : Pend} {t : Ticks}
    (hs : s.state = .awaitingResponse p t) (hrunning : 1 < t.toNat) :
    exec .tick s = .next { s with state := .awaitingResponse p (t - 1) } := by
  simp [exec, execTick, hs, hrunning.not_ge]

/-- One tick more at the end of a run of ticks. -/
theorem execAll_replicate_succ (k : Nat) (i : Instr) (s : State) :
    execAll (List.replicate (k + 1) i) s = andThen (execAll (List.replicate k i) s) (exec i) := by
  rw [List.replicate_succ', execAll_append]
  congr 1
  funext t
  rw [execAll_cons]
  cases exec i t <;> rfl

/-- What is left of the timer after `k` ticks. -/
theorem toNat_sub_ticks {t : Ticks} {k : Nat} (hk : k ≤ t.toNat) :
    (t - BitVec.ofNat 32 k).toNat = t.toNat - k := by
  have hlt : k < 2 ^ 32 := hk.trans_lt t.isLt
  have hofNat : (BitVec.ofNat 32 k).toNat = k := by rw [BitVec.toNat_ofNat, Nat.mod_eq_of_lt hlt]
  rw [BitVec.toNat_sub_of_le (by rw [BitVec.le_def, hofNat]; exact hk), hofNat]

/-- R171: `k` ticks, fewer than the timer holds, only count down. -/
theorem execAll_ticks_of_running {s : State} {p : Pend} {t : Ticks}
    (hs : s.state = .awaitingResponse p t) (k : Nat) (hk : k < max 1 t.toNat) :
    execAll (List.replicate k .tick) s =
      .next { s with state := .awaitingResponse p (t - BitVec.ofNat 32 k) } := by
  induction k with
  | zero =>
    rw [BitVec.sub_zero, ← hs]
    rfl
  | succ k ih =>
    have hleft : (t - BitVec.ofNat 32 k).toNat = t.toNat - k := toNat_sub_ticks (by omega)
    have hnext : t - BitVec.ofNat 32 k - 1 = t - BitVec.ofNat 32 (k + 1) := by
      rw [BitVec.ofNat_add, ← sub_sub]
      rfl
    rw [execAll_replicate_succ, ih (by omega), andThen_next_left,
      exec_tick_of_running rfl (by omega), hnext]

/-- R171: the operation times out at the `T`-th tick, or at the first where `T` is 0. -/
theorem execAll_ticks_of_last {s : State} {p : Pend} {t : Ticks}
    (hs : s.state = .awaitingResponse p t) :
    execAll (List.replicate (max 1 t.toNat) .tick) s =
      .next (resolve (.err .timeout) .idle (discardRx s)) := by
  obtain ⟨k, hk⟩ : ∃ k, max 1 t.toNat = k + 1 := ⟨max 1 t.toNat - 1, by omega⟩
  have hlast : (t - BitVec.ofNat 32 k).toNat ≤ 1 := by
    rcases Nat.eq_zero_or_pos t.toNat with h0 | hpos
    · obtain rfl : k = 0 := by omega
      simp [h0]
    · rw [toNat_sub_ticks (by omega)]
      omega
  rw [hk, execAll_replicate_succ, execAll_ticks_of_running hs k (by omega), andThen_next_left,
    exec_tick_of_last rfl hlast]
  rfl

end Sys2Proof.Machine

open Sys2Proof Sys2Proof.Machine

/-- Settles O44: one tick by what is left of the timer, many by induction on their number. -/
theorem tickCountsDownAndTimesOut : Obligations.TickCountsDownAndTimesOut :=
  ⟨fun _ => ⟨exec_tick_of_not_awaiting, fun _ _ => exec_tick_of_last,
      fun _ _ => exec_tick_of_running⟩,
    fun _ _ _ hs => ⟨execAll_ticks_of_running hs, execAll_ticks_of_last hs⟩⟩

end

/-! ### Transport errors, `Close` and the configuration (R172 to R175) -/
section
namespace Sys2Proof.Machine

theorem exec_transportError_of_closed {s : State} (h : s.state = .closed) :
    exec .transportError s = .next s := by
  simp [exec, execTransportError, h]

theorem exec_transportError_of_idle {s : State} (h : s.state = .idle) :
    exec .transportError s = .next (discardRx s) := by
  simp [exec, execTransportError, h]

theorem exec_transportError_of_awaiting {s : State} {p : Pend} {t : Ticks}
    (h : s.state = .awaitingResponse p t) :
    exec .transportError s = .next (resolve (.err .transportError) .idle (discardRx s)) := by
  simp [exec, execTransportError, h]

theorem exec_close_of_closed {s : State} (h : s.state = .closed) : exec .close s = .next s := by
  simp [exec, execClose, h]

theorem exec_close_of_idle {s : State} (h : s.state = .idle) :
    exec .close s = .next { discardRx s with state := .closed } := by
  simp [exec, execClose, h]

theorem exec_close_of_awaiting {s : State} {p : Pend} {t : Ticks}
    (h : s.state = .awaitingResponse p t) :
    exec .close s = .next (resolve (.err .closed) .closed (discardRx s)) := by
  simp [exec, execClose, h]

end Sys2Proof.Machine

open Sys2Proof Sys2Proof.Machine

/-- Settles O45, state by state. -/
theorem transportErrorRule : Obligations.TransportErrorRule := fun _ =>
  ⟨exec_transportError_of_closed, exec_transportError_of_idle,
    fun _ _ => exec_transportError_of_awaiting⟩

/-- Settles O46, state by state. -/
theorem closeRule : Obligations.CloseRule := fun _ =>
  ⟨exec_close_of_closed, exec_close_of_idle, fun _ _ => exec_close_of_awaiting⟩

/-- Settles O47: an operand of its register's width goes in unchanged. -/
theorem configurationWritesOnlyItsRegister : Obligations.ConfigurationWritesOnlyItsRegister := by
  intro s
  refine ⟨fun u => ?_, fun t => ?_⟩
  · simp [exec, execCfgUnit]
  · simp [exec, execCfgTimeout]

end

/-! ### Nothing happens in `Closed` (R151, R182) -/
section
namespace Sys2Proof.Machine

/-- R160, R161, R214: in `Closed` either submission is rejected with `Closed`. -/
theorem exec_of_submits_of_closed {i : Instr} {s : State} (hi : Submits i)
    (hclosed : s.state = .closed) : exec i s = .next (reject .closed s) := by
  rcases hi with ⟨addr, count, rfl⟩ | ⟨addr, values, rfl⟩
  · simp [exec, execSubmitRead, submit, hclosed]
  · simp [exec, execSubmitWrite, submit, hclosed]

/-- An output that the spec allows in `Closed`, or a value handed back (R182; log 9, log 19). -/
def Output.isQuiet (o : Output) : Prop := o = .reject .closed ∨ ∃ r, o = .returned r

/-- From `s` to `t` nothing but the configuration and the outputs allowed in `Closed`. -/
def Quiet (s t : State) : Prop :=
  ∃ os, t = { s with unitId := t.unitId, timeout := t.timeout, outputs := s.outputs ++ os } ∧
    ∀ o ∈ os, o.isQuiet

theorem quiet_emit {o : Output} (s : State) (ho : o.isQuiet) : Quiet s (emit o s) :=
  ⟨[o], rfl, fun _ h => List.mem_singleton.mp h ▸ ho⟩

/-- The configuration events write no output. -/
theorem quiet_config (s : State) (u : Byte) (d : Ticks) :
    Quiet s { s with unitId := u, timeout := d } :=
  ⟨[], by simp, nofun⟩

/-- Of the effects of an instruction, those that `Closed` leaves are quiet. -/
theorem Effect.quiet {i : Instr} {s t : State} (he : Effect s i t) (hexec : exec i s = .next t)
    (hclosed : s.state = .closed) (hi : i ≠ .reset) : Quiet s t := by
  have hstuck : ∀ phase, s.state = phase → phase = .closed := fun _ h => h.symm.trans hclosed
  cases he with
  | returns _ r => exact quiet_emit s (.inr ⟨r, rfl⟩)
  | rejects _ e hsubmits =>
    rw [exec_of_submits_of_closed hsubmits hclosed] at hexec
    rw [← Host.Outcome.next.inj hexec]
    exact quiet_emit s (.inl rfl)
  | accepts _ q _ hs _ => exact absurd (hstuck _ hs) nofun
  | receives _ bytes _ hreceive =>
    rw [receive_of_closed bytes hclosed] at hreceive
    cases hreceive
    exact quiet_config s s.unitId s.timeout
  | counts p r hs _ => exact absurd (hstuck _ hs) nofun
  | aborts _ p r e after hs _ => exact absurd (hstuck _ hs) nofun
  | drops hs => exact absurd (hstuck _ hs) nofun
  | closes hs => exact absurd (hstuck _ hs) nofun
  | ignores => exact quiet_config s s.unitId s.timeout
  | setsUnit u b => exact quiet_config s b s.timeout
  | setsTimeout n d => exact quiet_config s s.unitId d
  | resets _ _ => exact absurd rfl hi

end Sys2Proof.Machine

open Sys2Proof Sys2Proof.Machine

/-- Settles O48, by the effects that are possible in `Closed`. -/
theorem closedIsQuiet : Obligations.ClosedIsQuiet := by
  intro i s t hclosed hi hexec
  exact (exec_effect hexec).quiet hexec hclosed hi

end

/-! ### Every instruction completes, but for the overflow of a finite `rxbuf` (R165, R252) -/
section
namespace Sys2Proof.Machine

/-- The answer is a next state, or the refusal of R252, and then `RX_CAPACITY` is finite. -/
def CompletesOrOverflows (s : State) (a : Answer) : Prop :=
  (∃ t, a = .next t) ∨ (a = .refused .rxOverflow ∧ ∃ c, s.params.rxCapacity = some c)

theorem completes_next (s t : State) : CompletesOrOverflows s (.next t) := .inl ⟨t, rfl⟩

theorem receiveByte_completes (b : Byte) (s : State) :
    CompletesOrOverflows s (receiveByte b s) := by
  by_cases hclosed : s.state = .closed
  · have hdropped : receiveByte b s = .next s := by simp [receiveByte, hclosed]
    exact .inl ⟨s, hdropped⟩
  cases hroom : hasRoom s with
  | true => exact .inl ⟨_, receiveByte_of_room b s hclosed hroom⟩
  | false =>
    refine .inr ⟨receiveByte_of_full b s hclosed hroom, ?_⟩
    cases hcap : s.params.rxCapacity with
    | none => simp [hasRoom, hcap] at hroom
    | some c => exact ⟨c, rfl⟩

/-- R165: reception completes or overflows, since no byte changes the capacity. -/
theorem receive_completes (bytes : List Byte) (s : State) :
    CompletesOrOverflows s (receive bytes s) := by
  induction bytes generalizing s with
  | nil => exact completes_next s s
  | cons b bytes ih =>
    rw [receive_cons]
    rcases receiveByte_completes b s with ⟨t, ht⟩ | ⟨hfull, hcap⟩
    · have hrest := ih t
      rw [CompletesOrOverflows, (receiveByte_keepsRegisters ht).params] at hrest
      rw [ht]
      exact hrest
    · rw [hfull]
      exact .inr ⟨rfl, hcap⟩

theorem execTick_completes (s : State) : CompletesOrOverflows s (execTick s) := by
  unfold execTick
  split
  · split <;> exact completes_next s _
  · exact completes_next s _
  · exact completes_next s _

theorem execTransportError_completes (s : State) :
    CompletesOrOverflows s (execTransportError s) := by
  unfold execTransportError
  split <;> exact completes_next s _

theorem execClose_completes (s : State) : CompletesOrOverflows s (execClose s) := by
  unfold execClose
  split <;> exact completes_next s _

theorem execDeserialize_completes (buffer : List Byte) (offset n : Nat) (s : State) :
    CompletesOrOverflows s (execDeserialize buffer offset n s) := by
  unfold execDeserialize
  split <;> exact completes_next s _

/-- R252: the one refusal there is comes from reception. -/
theorem exec_completes (i : Instr) (s : State) : CompletesOrOverflows s (exec i s) := by
  cases i with
  | rdReq tid unitId addr count => exact completes_next s _
  | wrReq tid unitId addr values => exact completes_next s _
  | rdRsp h byteCount rest => exact receive_completes _ s
  | rdExc h code rest => exact receive_completes _ s
  | wrRsp h addr count rest => exact receive_completes _ s
  | wrExc h code rest => exact receive_completes _ s
  | submitRead addr count => exact completes_next s _
  | submitWrite addr values => exact completes_next s _
  | rx bytes => exact receive_completes bytes s
  | tick => exact execTick_completes s
  | transportError => exact execTransportError_completes s
  | close => exact execClose_completes s
  | cfgUnit u => rcases execCfgUnit_cases u s with ⟨b, -, e⟩ | ⟨-, e⟩ <;> exact .inl ⟨_, e⟩
  | cfgTimeout n => rcases execCfgTimeout_cases n s with ⟨d, -, e⟩ | ⟨-, e⟩ <;> exact .inl ⟨_, e⟩
  | reset => exact completes_next s _
  | serialize values =>
    rcases execSerialize_cases values s with ⟨vs, -, e⟩ | ⟨-, e⟩ <;> exact .inl ⟨_, e⟩
  | deserialize buffer offset n => exact execDeserialize_completes buffer offset n s

end Sys2Proof.Machine

open Sys2Proof Sys2Proof.Machine

/-- Settles O54: every instruction completes or overflows, and without a capacity nothing overflows. -/
theorem everyInstructionCompletes : Obligations.EveryInstructionCompletes := by
  refine ⟨fun i s hunbounded => ?_, fun i s r hrefused => ?_⟩
  · refine (exec_completes i s).resolve_right ?_
    rintro ⟨-, c, hc⟩
    exact absurd (hunbounded.symm.trans hc) nofun
  · rcases exec_completes i s with ⟨t, ht⟩ | ⟨hoverflow, hcap⟩
    · exact absurd (ht.symm.trans hrefused) nofun
    · cases hoverflow.symm.trans hrefused
      exact ⟨rfl, hcap⟩

end

/-! ### Where a step runs no instruction (R150, R217, R242, R245) -/
section
namespace Sys2Proof.Machine

theorem fetch_of_no_input {s : State} (h : s.inputs = []) : fetch s = .nothing s := by
  simp [fetch, h]

theorem fetch_of_decode_error {s : State} {x : Input} {rest : List Input} {e : DecodeError}
    (hinputs : s.inputs = x :: rest) (hdecode : decode x = .error e) :
    fetch s = .nothing { s with inputs := rest } := by
  simp [fetch, hinputs, hdecode]

/-- R245, U16: before the first `Reset` no other event has a meaning. -/
theorem fetch_before_reset {s : State} {x : Input} {rest : List Input} {i : Instr}
    (hinputs : s.inputs = x :: rest) (hdecode : decode x = .ok i) (hbefore : s.hasBeenReset = false)
    (hi : i ≠ .reset) (hevent : isEvent i = true) : fetch s = .stop .beforeReset := by
  simp [fetch, hinputs, hdecode, hbefore, hi, hevent]

theorem step_of_fetch_nothing {s t : State} (h : fetch s = .nothing t) : step s = .next t := by
  simp [step, h]

theorem step_of_fetch_stop {s : State} {r : Refusal} (h : fetch s = .stop r) :
    step s = .refused r := by
  simp [step, h]

end Sys2Proof.Machine

open Sys2Proof Sys2Proof.Machine

/-- Settles O5, by what is fetched in each of the three cases. -/
theorem stepWithoutAnInstruction : Obligations.StepWithoutAnInstruction :=
  ⟨fun _ hinputs => step_of_fetch_nothing (fetch_of_no_input hinputs),
    fun _ _ _ _ hinputs hdecode => step_of_fetch_nothing (fetch_of_decode_error hinputs hdecode),
    fun _ _ _ _ hinputs hdecode hbefore hi hevent =>
      step_of_fetch_stop (fetch_before_reset hinputs hdecode hbefore hi hevent)⟩

end

/-! # Proofs about the exceptions (60_exceptions.md) -/

/-! ### A rejected submission (R160, R161, R178, R209, R214) -/
section
namespace Sys2Proof.Machine

/-- R178: while a response is awaited, either submission is rejected with `Busy`, whatever its
operands. -/
theorem exec_of_submits_of_awaiting {i : Instr} {s : State} {p : Pend} {t : Ticks} (hi : Submits i)
    (hawaiting : s.state = .awaitingResponse p t) : exec i s = .next (reject .busy s) := by
  rcases hi with ⟨addr, count, rfl⟩ | ⟨addr, values, rfl⟩
  · simp [exec, execSubmitRead, submit, hawaiting]
  · simp [exec, execSubmitWrite, submit, hawaiting]

end Sys2Proof.Machine

open Sys2Proof Sys2Proof.Machine

/-- Settles O24, by the phase: `Closed` and `Busy` for either submission, then the illegal counts. -/
theorem rejectedSubmissionsChangeNoState : Obligations.RejectedSubmissionsChangeNoState := by
  intro s
  have hread : ∀ addr count, Submits (.submitRead addr count) := fun _ _ => .inl ⟨_, _, rfl⟩
  have hwrite : ∀ addr values, Submits (.submitWrite addr values) := fun _ _ => .inr ⟨_, _, rfl⟩
  refine ⟨fun hclosed => ⟨fun _ _ => ?_, fun _ _ => ?_⟩,
    fun p t hawaiting => ⟨fun _ _ => ?_, fun _ _ => ?_⟩,
    fun hidle => ⟨fun _ _ hcount => ?_, fun _ _ hlength => ?_⟩⟩
  · exact exec_of_submits_of_closed (hread _ _) hclosed
  · exact exec_of_submits_of_closed (hwrite _ _) hclosed
  · exact exec_of_submits_of_awaiting (hread _ _) hawaiting
  · exact exec_of_submits_of_awaiting (hwrite _ _) hawaiting
  · exact exec_submitRead_of_illegal hidle (.inr hcount)
  · exact exec_submitWrite_of_illegal hidle (.inr (.inr hlength))

end

/-! # Proofs about reset and the hazards (70_reset_and_hazards.md) -/

/-! ### Reset (R240) -/
section
open Sys2Proof Sys2Proof.Machine

/-- Settles O1: the reset values are what `execReset` writes, and whatever else completes in `Closed`
is quiet (O48), which leaves the phase. -/
theorem resetAloneLeavesClosed : Obligations.ResetAloneLeavesClosed := by
  refine ⟨fun _ => rfl, fun i s t hclosed hi hexec => ?_⟩
  obtain ⟨os, ht, -⟩ := closedIsQuiet i s t hclosed hi hexec
  rw [ht]
  exact hclosed

end

/-! ### A stale frame in `rxbuf` (R253) -/
section
open Sys2Proof Sys2Proof.Machine

/-- Settles O29: the stale frame completes the read it is found by, and does not correlate with it. -/
theorem staleFrameFailsTheNextRead : Obligations.StaleFrameFailsTheNextRead := by
  intro s frame surplus addr count hidle hbuffered hframe hstale hmin hmax
  have hsome : frameAvailable s.rxbuf = some frame.length :=
    hbuffered ▸ frameAvailable_append frame surplus _ hframe
  have hanswer : answer ⟨.read, s.nextTid, addr, count⟩ frame = .err .protocolError :=
    answer_of_other_tid hstale
  rw [exec_submitRead_of_ok hidle (encodeReadRequest_of_legal _ _ _ _ hmin hmax),
    tryComplete_accept_of_some _ hidle hsome, hbuffered, List.take_left, List.drop_left, hanswer]
  rfl

end

/-! ### What a success proves (R259) -/
section
namespace Sys2Proof.Machine

/-- R132: when the read decoder succeeds, and with which values. -/
theorem decodeReadResponse_eq_ok {b : List Byte} {n : Nat} {vs : List U16} :
    decodeReadResponse b n = .ok vs ↔
      9 + 2 * n ≤ b.length ∧ byteAt b 7 = 0x03 ∧ (byteAt b 8).toNat = 2 * n ∧
        vs = deserialize b 9 n := by
  by_cases hlen : 9 + 2 * n ≤ b.length
  case neg =>
    have herr : decodeReadResponse b n ≠ .ok vs := by
      by_cases hshort : b.length < 9
      · simp [decodeReadResponse_of_short hshort]
      by_cases hexc : byteAt b 7 = 0x83
      · simp [decodeReadResponse_of_exception (Nat.le_of_not_lt hshort) hexc]
      · simp [decodeReadResponse_of_truncated (Nat.le_of_not_lt hshort) (Nat.lt_of_not_le hlen) hexc]
    exact iff_of_false herr fun ⟨hlong, _⟩ => hlen hlong
  by_cases hexc : byteAt b 7 = 0x83
  · simp [decodeReadResponse_of_exception (Nat.le_of_add_right_le hlen) hexc, hexc]
  · rw [decodeReadResponse_of_complete hlen hexc]
    split_ifs with hfc hcount
    · exact iff_of_false nofun fun ⟨_, hread, _⟩ => hfc hread
    · exact iff_of_false nofun fun ⟨_, _, htwice, _⟩ => hcount htwice
    · simp [hlen, not_not.mp hfc, not_not.mp hcount, eq_comm]

/-- R138: when the write decoder succeeds. -/
theorem decodeWriteResponse_eq_ok {b : List Byte} {addr count : U16} :
    decodeWriteResponse b addr count = .ok () ↔
      12 ≤ b.length ∧ byteAt b 7 = 0x10 ∧ be16 (byteAt b 8) (byteAt b 9) = addr ∧
        be16 (byteAt b 10) (byteAt b 11) = count := by
  by_cases hlen : 12 ≤ b.length
  case neg =>
    have herr : decodeWriteResponse b addr count ≠ .ok () := by
      by_cases hshort : b.length < 9
      · simp [decodeWriteResponse_of_short hshort]
      by_cases hexc : byteAt b 7 = 0x90
      · simp [decodeWriteResponse_of_exception (Nat.le_of_not_lt hshort) hexc]
      · simp [decodeWriteResponse_of_truncated (Nat.le_of_not_lt hshort) (Nat.lt_of_not_le hlen) hexc]
    exact iff_of_false herr fun ⟨hlong, _⟩ => hlen hlong
  by_cases hexc : byteAt b 7 = 0x90
  · simp [decodeWriteResponse_of_exception (show 9 ≤ b.length by omega) hexc, hexc]
  · rw [decodeWriteResponse_of_complete hlen hexc]
    split_ifs with hfc haddr hcount
    · exact iff_of_false nofun fun ⟨_, hwrite, _⟩ => hfc hwrite
    · exact iff_of_false nofun fun ⟨_, _, hecho, _⟩ => haddr hecho
    · exact iff_of_false nofun fun ⟨_, _, _, hecho⟩ => hcount hecho
    · simp [hlen, not_not.mp hfc, not_not.mp haddr, not_not.mp hcount]

/-- R157: only a frame that correlates succeeds. -/
theorem tid_of_answer_ne_protocolError {p : Pend} {frame : List Byte}
    (h : answer p frame ≠ .err .protocolError) :
    be16 (byteAt frame 0) (byteAt frame 1) = p.tid :=
  not_not.mp (mt answer_of_other_tid h)

theorem readResult_eq_okValues {d : Except Err (List U16)} {vs : List U16} :
    readResult d = .okValues vs ↔ d = .ok vs := by
  cases d <;> simp [readResult]

theorem readResult_ne_okWritten (d : Except Err (List U16)) : readResult d ≠ .okWritten := by
  cases d <;> simp [readResult]

theorem writeResult_eq_okWritten {d : Except Err Unit} : writeResult d = .okWritten ↔ d = .ok () := by
  cases d <;> simp [writeResult]

end Sys2Proof.Machine

open Sys2Proof Sys2Proof.Machine

/-- Settles O33: a success correlates, its kind fits the decoder, and that decoder has checked the rest. -/
theorem whatSuccessProves : Obligations.WhatSuccessProves := by
  intro p frame
  refine ⟨fun vs hvalues => ?_, fun hwritten => ?_⟩
  · have htid := tid_of_answer_ne_protocolError (hvalues ▸ nofun : answer p frame ≠ _)
    obtain ⟨hkind, -⟩ := answer_okValues hvalues
    rw [answer_of_read htid hkind, readResult_eq_okValues, decodeReadResponse_eq_ok] at hvalues
    obtain ⟨hlen, hfc, hcount, hvs⟩ := hvalues
    exact ⟨hkind, htid, hfc, hcount, hlen, hvs⟩
  · have htid := tid_of_answer_ne_protocolError (hwritten ▸ nofun : answer p frame ≠ _)
    cases hkind : p.kind with
    | read =>
      rw [answer_of_read htid hkind] at hwritten
      exact absurd hwritten (readResult_ne_okWritten _)
    | write =>
      rw [answer_of_write htid hkind, writeResult_eq_okWritten, decodeWriteResponse_eq_ok] at hwritten
      obtain ⟨-, hfc, haddr, hcount⟩ := hwritten
      exact ⟨rfl, htid, hfc, haddr, hcount⟩

end

/-! ### Reception beyond a finite capacity (R252) -/
section
namespace Sys2Proof.Machine

/-- R252: with `rxbuf` at its capacity there is no room. -/
theorem hasRoom_of_full {s : State} (hcap : s.params.rxCapacity = some s.rxbuf.length) :
    hasRoom s = false := by
  simp [hasRoom, hcap]

/-- R252: bytes that complete no frame and exceed the capacity are refused: those that fill `rxbuf` are
kept (R165), and the next one finds no room. -/
theorem receive_of_overflow {s : State} {bytes : List Byte} {c : Nat} (hopen : s.state ≠ .closed)
    (hinc : Incomplete s (s.rxbuf ++ bytes)) (hcap : s.params.rxCapacity = some c)
    (hfits : s.rxbuf.length ≤ c) (hover : c < s.rxbuf.length + bytes.length) :
    receive bytes s = .refused .rxOverflow := by
  obtain ⟨fit, b, rest, rfl, hfull⟩ :
      ∃ fit b rest, bytes = fit ++ b :: rest ∧ s.rxbuf.length + fit.length = c := by
    have hlt : c - s.rxbuf.length < bytes.length := by omega
    refine ⟨bytes.take (c - s.rxbuf.length), bytes[c - s.rxbuf.length],
      bytes.drop (c - s.rxbuf.length + 1), ?_, ?_⟩
    · rw [← List.drop_eq_getElem_cons hlt, List.take_append_drop]
    · rw [List.length_take_of_le hlt.le]
      omega
  rw [← List.append_assoc] at hinc
  have hroom : RoomFor s fit.length := fun c' hc' => by
    rw [hcap] at hc'
    cases hc'
    exact hfull.le
  have hbyte : receiveByte b { s with rxbuf := s.rxbuf ++ fit } = .refused .rxOverflow :=
    receiveByte_of_full b { s with rxbuf := s.rxbuf ++ fit } hopen
      (hasRoom_of_full (by simp [hcap, hfull]))
  rw [receive_append, receive_of_incomplete fit s hopen hinc.of_append hroom, andThen_next_left,
    receive_cons, hbyte, andThen_refused_left]

end Sys2Proof.Machine

open Sys2Proof Sys2Proof.Machine

/-- Settles O39: neither in `Idle` nor while the frame stays incomplete is anything consumed. -/
theorem rxBeyondCapacityIsRefused : Obligations.RxBeyondCapacityIsRefused := by
  intro bytes s c hcap hfits hover hs
  rw [exec_rx]
  rcases hs with hidle | ⟨p, t, hawaiting, hnone⟩
  · exact receive_of_overflow (by simp [hidle]) (incomplete_of_idle hidle _) hcap hfits hover
  · exact receive_of_overflow (by simp [hawaiting]) (fun _ _ _ => hnone) hcap hfits hover

end
